-- ==== Sys2Proof/Word.lean ====
section
/-! DEFINITION. The word types: byte, word, register number, and the four-lane vector (R15). -/

namespace Sys2Proof

/-- One byte of the window. -/
abbrev Byte := BitVec 8

/-- A word: 32 bits, unsigned (R12 WORD, R15). -/
abbrev Word := BitVec 32

/-- A register number, 0 to 15 (R12 V_REGS, S_REGS; R112). -/
abbrev Reg := Fin 16

/-- A vector: 128 bits held as four 32-bit lanes, lane 0 the least significant word (R12 LANES, R15).
`⟨l0, l1, l2, l3⟩` is the spec's `[l0, l1, l2, l3] = l3 : l2 : l1 : l0`. -/
structure Vec where
  l0 : Word
  l1 : Word
  l2 : Word
  l3 : Word
  deriving DecidableEq, Repr

/-- The vector whose four lanes are 0. -/
def Vec.zero : Vec := ⟨0, 0, 0, 0⟩

end Sys2Proof
end

