-- ==== Sys2Proof/Config.lean ====
section
/-! DEFINITION. What the spec leaves open as a parameter (R13), each an uninterpreted constant, and the fixed
parameters of R12 that are plain numbers.
The ROMs, the round constants and the region map are fixed by the spec; they stand in Machine/Rom.lean,
Machine/Constants.lean and Machine/Window.lean. -/

namespace Sys2Proof.Config

/-- BASE: the platform address of window offset 0 (R13, decision D2: OPEN). No rule's value depends on it. -/
opaque base : Nat

/-- LAT_SHA1 less one: no body, so that no proof can use a value. -/
opaque latSha1Less1 : Nat

/-- LAT_SHA256 less one: no body, so that no proof can use a value. -/
opaque latSha256Less1 : Nat

/-- LAT_SHA1: the clock cycles SHA1_COMPRESS holds the port, a positive number that does not depend on the data
(R13, R356, decision D19: OPEN). -/
def latSha1 : Nat := latSha1Less1 + 1

/-- LAT_SHA256: the clock cycles SHA256_COMPRESS holds the port (R13, R356, decision D19: OPEN). -/
def latSha256 : Nat := latSha256Less1 + 1

/-- WINDOW_BYTES (R12, decision D2). -/
def windowBytes : Nat := 0x200

/-- SHA1_ROUNDS (R12). -/
def sha1Rounds : Nat := 80

/-- SHA256_ROUNDS (R12). -/
def sha256Rounds : Nat := 64

/-- SHA1_UPROG_LEN: micro-instructions of U1's program, END included (R12, R220). -/
def sha1UprogLen : Nat := 149

/-- SHA256_UPROG_LEN: micro-instructions of U2's program, END included (R12, R270). -/
def sha256UprogLen : Nat := 121

end Sys2Proof.Config
end

