-- ==== Sys2Proof/Syntax.lean ====
section
/-! DEFINITION. The two instruction sets as one inductive: the host's command words (R101) and the units'
micro-operations (R114); one constructor per row of spec/opcode_table.json. -/

namespace Sys2Proof

/-- The block's two units (R2): U1 computes SHA-1, U2 computes SHA-256. -/
inductive UnitId where
  | u1
  | u2
  deriving DecidableEq, Repr

/-- Where an instruction word stands: written to CMD by the host (R100), or in a unit's ROM (R110).
The same 32 bits mean different things in the two places: 0x00000000 is NOP in CMD and END in a ROM. -/
inductive Slot where
  | cmd
  | rom (u : UnitId)
  deriving DecidableEq, Repr

/-- An instruction. Operands stand in the assembler's order of R114 and R119, destination first. -/
inductive Instr where
  /-- NOP, command word 0 (R148). -/
  | nop
  /-- SHA1_COMPRESS, command word 1 (R146). -/
  | sha1Compress
  /-- SHA256_COMPRESS, command word 2 (R147). -/
  | sha256Compress
  /-- END: end of micro-program (R182). -/
  | endOp
  /-- VLD Vd, [imm] (R172). -/
  | vld (d : Reg) (imm : BitVec 12)
  /-- VST [imm], Vn (R173). -/
  | vst (imm : BitVec 12) (n : Reg)
  /-- SLD Sd, [imm] (R174). -/
  | sld (d : Reg) (imm : BitVec 12)
  /-- SST [imm], Sn (R175). -/
  | sst (imm : BitVec 12) (n : Reg)
  /-- VMOV Vd, Vn (R176). -/
  | vmov (d n : Reg)
  /-- SMOV Sd, Sn (R177). -/
  | smov (d n : Reg)
  /-- SGETL Sd, Vn, #lane (R179). -/
  | sgetl (d n : Reg) (lane : Fin 4)
  /-- VREV32 Vd, Vn (R178). -/
  | vrev32 (d n : Reg)
  /-- VADD Vd, Vn, Vm (R180). -/
  | vadd (d n m : Reg)
  /-- SADD Sd, Sn, Sm (R181). -/
  | sadd (d n m : Reg)
  /-- VDUPK Vd, #k (R183), U1 only. -/
  | vdupk (d : Reg) (k : Fin 4)
  /-- VLDK Vd, #n (R184), U2 only. -/
  | vldk (d : Reg) (g : Fin 16)
  /-- SHA1C Vd, Sn, Vm (R210), U1 only. -/
  | sha1c (d n m : Reg)
  /-- SHA1P Vd, Sn, Vm (R211), U1 only. -/
  | sha1p (d n m : Reg)
  /-- SHA1M Vd, Sn, Vm (R212), U1 only. -/
  | sha1m (d n m : Reg)
  /-- SHA1H Sd, Sn (R213), U1 only. -/
  | sha1h (d n : Reg)
  /-- SHA1SU0 Vd, Vn, Vm (R214), U1 only. -/
  | sha1su0 (d n m : Reg)
  /-- SHA1SU1 Vd, Vn (R215), U1 only. -/
  | sha1su1 (d n : Reg)
  /-- SHA256H Vd, Vn, Vm (R260), U2 only. -/
  | sha256h (d n m : Reg)
  /-- SHA256H2 Vd, Vn, Vm (R261), U2 only. -/
  | sha256h2 (d n m : Reg)
  /-- SHA256SU0 Vd, Vn (R262), U2 only. -/
  | sha256su0 (d n : Reg)
  /-- SHA256SU1 Vd, Vn, Vm (R263), U2 only. -/
  | sha256su1 (d n m : Reg)
  deriving DecidableEq, Repr

end Sys2Proof
end

