-- ==== Sys2Proof/Machine/Window.lean ====
section
/-! DEFINITION. The address window: the region map (R70), which host accesses are legal (R76), and the units' local
offsets (R75, R77). Pure functions of offsets; no state. -/

namespace Sys2Proof.Machine

/-- The regions of the window (R70; the helper `region` of 40_host_interface.md). -/
inductive Region where
  | u1s
  | u1b
  | u2s
  | u2b
  | ctrl
  | rsvd
  deriving DecidableEq, Repr

/-- `region(o)` of 40_host_interface.md (R70). -/
def region (o : Nat) : Region :=
  if o ≤ 0x013 then .u1s
  else if 0x040 ≤ o ∧ o ≤ 0x07F then .u1b
  else if 0x080 ≤ o ∧ o ≤ 0x09F then .u2s
  else if 0x0C0 ≤ o ∧ o ≤ 0x0FF then .u2b
  else if 0x100 ≤ o ∧ o ≤ 0x10B then .ctrl
  else .rsvd

/-- A region whose bytes the host may read and write: U1S, U1B, U2S or U2B (R76 a). -/
def Region.isData : Region → Bool
  | .u1s | .u1b | .u2s | .u2b => true
  | .ctrl | .rsvd => false

/-- The sizes a host access may have (R76, R103, R142 a). -/
def legalSize (n : Nat) : Bool := n = 1 || n = 2 || n = 4 || n = 8 || n = 16

/-- The bytes `o` to `o + n - 1` all lie in the region `r`. -/
def allIn (r : Region) (o : Nat) : Nat → Bool
  | 0 => true
  | n + 1 => region o = r && allIn r (o + 1) n

/-- `dataAccess(o, n)` of 40_host_interface.md (R76 a). -/
def dataAccess (o n : Nat) : Bool :=
  legalSize n && (o + n ≤ Config.windowBytes && ((region o).isData && allIn (region o) o n))

/-- Window offset of CMD (R35). -/
def cmdOff : Nat := 0x100

/-- Window offset of STATUS (R37). -/
def statusOff : Nat := 0x104

/-- Window offset of CAPS (R36). -/
def capsOff : Nat := 0x108

/-- `ctrlAccess(o, n)` of 40_host_interface.md (R76 b). -/
def ctrlAccess (o n : Nat) : Bool := n = 4 && (o = cmdOff || o = statusOff || o = capsOff)

/-- `base(u)`: the window offset of a unit's local offset 0 (R75). -/
def unitBase : UnitId → Nat
  | .u1 => 0x000
  | .u2 => 0x080

/-- Bytes of a unit's STATE region: 20 for U1, 32 for U2 (R70, R75). -/
def stateBytes : UnitId → Nat
  | .u1 => 20
  | .u2 => 32

/-- Unit-local offset of a unit's BLOCK region (R75). -/
def blockOff : Nat := 0x40

/-- BLOCK_BYTES (R12). -/
def blockBytes : Nat := 64

/-- The `n` bytes at unit-local offset `o` all lie in one data region of the unit: its STATE region or its BLOCK
region (R75, R77, R116 d). -/
def localLegal (u : UnitId) (o n : Nat) : Bool :=
  o + n ≤ stateBytes u || (blockOff ≤ o && o + n ≤ blockOff + blockBytes)

/-- The window offset that a platform address selects, none outside the window: the block never sees such an
access (R70). -/
def windowOffset (addr : Nat) : Option (BitVec 9) :=
  if Config.base ≤ addr ∧ addr < Config.base + Config.windowBytes then
    some (BitVec.ofNat 9 (addr - Config.base))
  else none

end Sys2Proof.Machine
end

