-- ==== Sys2Proof/WellFormed.lean ====
section
/-! DEFINITION. Which instruction may stand in which slot: unit membership (R117) and the legal offsets of loads and
stores (R116 d). Register numbers, lanes and constant indices are bounded by their types (R112, R113). -/

namespace Sys2Proof

open Machine

/-- A host command (R101). -/
def Instr.isCommand : Instr → Bool
  | .nop | .sha1Compress | .sha256Compress => true
  | .endOp | .vld _ _ | .vst _ _ | .sld _ _ | .sst _ _ | .vmov _ _ | .smov _ _ | .sgetl _ _ _ | .vrev32 _ _
  | .vadd _ _ _ | .sadd _ _ _ | .vdupk _ _ | .vldk _ _ | .sha1c _ _ _ | .sha1p _ _ _ | .sha1m _ _ _
  | .sha1h _ _ | .sha1su0 _ _ _ | .sha1su1 _ _ | .sha256h _ _ _ | .sha256h2 _ _ _ | .sha256su0 _ _
  | .sha256su1 _ _ _ => false

/-- The micro-operations a unit executes: the unit column of R114, R117. -/
def Instr.runsOn (u : UnitId) : Instr → Bool
  | .nop | .sha1Compress | .sha256Compress => false
  | .endOp | .vld _ _ | .vst _ _ | .sld _ _ | .sst _ _ | .vmov _ _ | .smov _ _ | .sgetl _ _ _ | .vrev32 _ _
  | .vadd _ _ _ | .sadd _ _ _ => true
  | .vdupk _ _ | .sha1c _ _ _ | .sha1p _ _ _ | .sha1m _ _ _ | .sha1h _ _ | .sha1su0 _ _ _ | .sha1su1 _ _ =>
      u = .u1
  | .vldk _ _ | .sha256h _ _ _ | .sha256h2 _ _ _ | .sha256su0 _ _ | .sha256su1 _ _ _ => u = .u2

/-- The offsets a load or store may name: 16 bytes for VLD and VST, 4 for SLD and SST, all in one data region of the
unit (R77, R116 d). An operation with no offset passes. -/
def Instr.offsetOk (u : UnitId) : Instr → Bool
  | .vld _ imm | .vst imm _ => localLegal u imm.toNat 16
  | .sld _ imm | .sst imm _ => localLegal u imm.toNat 4
  | .nop | .sha1Compress | .sha256Compress | .endOp | .vmov _ _ | .smov _ _ | .sgetl _ _ _ | .vrev32 _ _
  | .vadd _ _ _ | .sadd _ _ _ | .vdupk _ _ | .vldk _ _ | .sha1c _ _ _ | .sha1p _ _ _ | .sha1m _ _ _
  | .sha1h _ _ | .sha1su0 _ _ _ | .sha1su1 _ _ | .sha256h _ _ _ | .sha256h2 _ _ _ | .sha256su0 _ _
  | .sha256su1 _ _ _ => true

/-- An instruction that may stand in a slot: a command in CMD (R101); in a unit's ROM, a micro-operation of that unit
(R117) with a legal offset (R116 d). -/
def Instr.wellFormed : Slot → Instr → Bool
  | .cmd, i => i.isCommand
  | .rom u, i => i.runsOn u && i.offsetOk u

end Sys2Proof
end

