-- ==== Sys2Proof/Decode.lean ====
section
/-! DEFINITION. Decoding, total on every 32-bit word (R100 to R102, R110 to R117), and after it the encoder. -/

namespace Sys2Proof

open Machine

/-- Why a word is no instruction in its slot, one name per clause of R102 and R116. -/
inductive DecodeError where
  /-- A command word other than 0, 1 and 2 (R102). -/
  | illegalCommand
  /-- A UOP that R114 does not list (R116 a). -/
  | unknownUop
  /-- A field the format does not use is not zero (R111, R116 b, R116 c for IMM). -/
  | nonzeroField
  /-- A lane, constant or group index out of range (R116 c). -/
  | immOutOfRange
  /-- A load or store whose bytes are not all in one data region of the unit (R116 d). -/
  | offsetOutsideRegion
  /-- An operation of the other unit (R116 e, R117). -/
  | otherUnit
  deriving DecidableEq, Repr

/-! ### Fields (R110) -/

/-- UOP, bits 31:24. -/
def uopOf (w : Word) : BitVec 8 := w.extractLsb' 24 8

/-- D, bits 23:20. -/
def dOf (w : Word) : Reg := (w.extractLsb' 20 4).toFin

/-- N, bits 19:16. -/
def nOf (w : Word) : Reg := (w.extractLsb' 16 4).toFin

/-- M, bits 15:12. -/
def mOf (w : Word) : Reg := (w.extractLsb' 12 4).toFin

/-- IMM, bits 11:0, unsigned (R113). -/
def immOf (w : Word) : BitVec 12 := w.extractLsb' 0 12

/-! ### Formats (R111): each refuses a word whose unused fields are not zero -/

/-- Format F0: no field used. -/
def formatF0 (w : Word) (i : Instr) : Except DecodeError Instr :=
  if dOf w = 0 ∧ nOf w = 0 ∧ mOf w = 0 ∧ immOf w = 0 then .ok i else .error .nonzeroField

/-- Format FL: D and IMM. -/
def formatFL (w : Word) (f : Reg → BitVec 12 → Except DecodeError Instr) : Except DecodeError Instr :=
  if nOf w = 0 ∧ mOf w = 0 then f (dOf w) (immOf w) else .error .nonzeroField

/-- Format FS: N and IMM. -/
def formatFS (w : Word) (f : Reg → BitVec 12 → Except DecodeError Instr) : Except DecodeError Instr :=
  if dOf w = 0 ∧ mOf w = 0 then f (nOf w) (immOf w) else .error .nonzeroField

/-- Format F2: D and N. -/
def formatF2 (w : Word) (f : Reg → Reg → Instr) : Except DecodeError Instr :=
  if mOf w = 0 ∧ immOf w = 0 then .ok (f (dOf w) (nOf w)) else .error .nonzeroField

/-- Format F2I: D, N and IMM. -/
def formatF2I (w : Word) (f : Reg → Reg → BitVec 12 → Except DecodeError Instr) : Except DecodeError Instr :=
  if mOf w = 0 then f (dOf w) (nOf w) (immOf w) else .error .nonzeroField

/-- Format F3: D, N and M. -/
def formatF3 (w : Word) (f : Reg → Reg → Reg → Instr) : Except DecodeError Instr :=
  if immOf w = 0 then .ok (f (dOf w) (nOf w) (mOf w)) else .error .nonzeroField

/-- An index below `n` from IMM; a larger IMM is reserved (R113, R116 c). -/
def indexImm (n : Nat) (imm : BitVec 12) (f : Fin n → Instr) : Except DecodeError Instr :=
  if h : imm.toNat < n then .ok (f ⟨imm.toNat, h⟩) else .error .immOutOfRange

/-! ### The two instruction sets -/

/-- A command word (R100 to R102). -/
def decodeCommand (w : Word) : Except DecodeError Instr :=
  match w.toNat with
  | 0x0 => .ok .nop
  | 0x1 => .ok .sha1Compress
  | 0x2 => .ok .sha256Compress
  | _ => .error .illegalCommand

/-- A micro-instruction word by its UOP and format (R114), before the checks that depend on the unit. -/
def decodeUop (w : Word) : Except DecodeError Instr :=
  match (uopOf w).toNat with
  | 0x00 => formatF0 w .endOp
  | 0x01 => formatFL w fun d imm => .ok (.vld d imm)
  | 0x02 => formatFS w fun n imm => .ok (.vst imm n)
  | 0x03 => formatFL w fun d imm => .ok (.sld d imm)
  | 0x04 => formatFS w fun n imm => .ok (.sst imm n)
  | 0x05 => formatF2 w .vmov
  | 0x06 => formatF2 w .smov
  | 0x07 => formatF2I w fun d n imm => indexImm 4 imm (.sgetl d n)
  | 0x08 => formatF2 w .vrev32
  | 0x09 => formatF3 w .vadd
  | 0x0A => formatF3 w .sadd
  | 0x0B => formatFL w fun d imm => indexImm 4 imm (.vdupk d)
  | 0x0C => formatFL w fun d imm => indexImm 16 imm (.vldk d)
  | 0x10 => formatF3 w .sha1c
  | 0x11 => formatF3 w .sha1p
  | 0x12 => formatF3 w .sha1m
  | 0x13 => formatF2 w .sha1h
  | 0x14 => formatF3 w .sha1su0
  | 0x15 => formatF2 w .sha1su1
  | 0x20 => formatF3 w .sha256h
  | 0x21 => formatF3 w .sha256h2
  | 0x22 => formatF2 w .sha256su0
  | 0x23 => formatF3 w .sha256su1
  | _ => .error .unknownUop

/-- The checks that depend on the executing unit: membership (R117) and the offset (R116 d). -/
def checkUnit (u : UnitId) (i : Instr) : Except DecodeError Instr :=
  if i.runsOn u then
    if i.offsetOk u then .ok i else .error .offsetOutsideRegion
  else .error .otherUnit

/-- `Decode_u` (R115, R171). -/
def decodeMicro (u : UnitId) (w : Word) : Except DecodeError Instr :=
  match decodeUop w with
  | .ok i => checkUnit u i
  | .error e => .error e

/-- The instruction a word is in its slot, or the reason it is none. -/
def decode : Slot → Word → Except DecodeError Instr
  | .cmd, w => decodeCommand w
  | .rom u, w => decodeMicro u w

/-! ### The encoder (R101, R110, R114) -/

/-- `UOP<<24 | D<<20 | N<<16 | M<<12 | IMM` (R110). -/
def pack (uop : BitVec 8) (d n m : Reg) (imm : BitVec 12) : Word :=
  uop ++ BitVec.ofFin (w := 4) d ++ BitVec.ofFin (w := 4) n ++ BitVec.ofFin (w := 4) m ++ imm

/-- The word of an instruction. -/
def encode : Instr → Word
  | .nop => 0x00000000
  | .sha1Compress => 0x00000001
  | .sha256Compress => 0x00000002
  | .endOp => pack 0x00 0 0 0 0
  | .vld d imm => pack 0x01 d 0 0 imm
  | .vst imm n => pack 0x02 0 n 0 imm
  | .sld d imm => pack 0x03 d 0 0 imm
  | .sst imm n => pack 0x04 0 n 0 imm
  | .vmov d n => pack 0x05 d n 0 0
  | .smov d n => pack 0x06 d n 0 0
  | .sgetl d n lane => pack 0x07 d n 0 (BitVec.ofNat 12 lane.val)
  | .vrev32 d n => pack 0x08 d n 0 0
  | .vadd d n m => pack 0x09 d n m 0
  | .sadd d n m => pack 0x0A d n m 0
  | .vdupk d k => pack 0x0B d 0 0 (BitVec.ofNat 12 k.val)
  | .vldk d g => pack 0x0C d 0 0 (BitVec.ofNat 12 g.val)
  | .sha1c d n m => pack 0x10 d n m 0
  | .sha1p d n m => pack 0x11 d n m 0
  | .sha1m d n m => pack 0x12 d n m 0
  | .sha1h d n => pack 0x13 d n 0 0
  | .sha1su0 d n m => pack 0x14 d n m 0
  | .sha1su1 d n => pack 0x15 d n 0 0
  | .sha256h d n m => pack 0x20 d n m 0
  | .sha256h2 d n m => pack 0x21 d n m 0
  | .sha256su0 d n => pack 0x22 d n 0 0
  | .sha256su1 d n m => pack 0x23 d n m 0

/-! ### The host's table word -/

/-- The slot in which a table word is read: CMD for the three command words, else the first of U1's and U2's ROM that
gives it a meaning, else U1's ROM. The table has two rows of word 0, NOP and END; it is read as NOP
(notes/assumptions/1.md). -/
def tableSlot (w : Word) : Slot :=
  if (decodeCommand w).isOk then .cmd
  else if (decodeMicro .u1 w).isOk then .rom .u1
  else if (decodeMicro .u2 w).isOk then .rom .u2
  else .rom .u1

/-- The `nbits` low bits of `w` as a word; every bit above them is 0. -/
def tableWord (nbits w : Nat) : Word := BitVec.ofNat 32 (w % 2 ^ nbits)

/-- The instruction the decoder reads from a row's word, bits numbered as spec/opcode_table.json numbers them. -/
def decodeTableWord (nbits w : Nat) : Option Instr :=
  (decode (tableSlot (tableWord nbits w)) (tableWord nbits w)).toOption

end Sys2Proof
end

