-- ==== Sys2Proof/Machine/Rom.lean ====
section
/-! DEFINITION. The two micro-program ROMs, word for word as the listings of R220 and R270 give them. -/

namespace Sys2Proof.Machine.Rom

/-! ### U1 (R220) -/

/-- Load state and block, byte-swap (R220, upc 0 to 11). -/
def u1At0 : List Word :=
  [0x01000000, 0x03000010, 0x05100000, 0x06100000, 0x01400040, 0x01500050, 0x01600060,
   0x01700070, 0x08440000, 0x08550000, 0x08660000, 0x08770000]

/-- Round groups 0 to 3 (R220, upc 12 to 31). -/
def u1At12 : List Word :=
  [0x0B200000, 0x09242000, 0x07200000, 0x13320000, 0x10002000, 0x0B200000, 0x09252000,
   0x07200000, 0x13020000, 0x10032000, 0x0B200000, 0x09262000, 0x07200000, 0x13320000,
   0x10002000, 0x0B200000, 0x09272000, 0x07200000, 0x13020000, 0x10032000]

/-- Round group 4 (R220, upc 32 to 38). -/
def u1At32 : List Word :=
  [0x14456000, 0x15470000, 0x0B200000, 0x09242000, 0x07200000, 0x13320000, 0x10002000]

/-- Round groups 5 to 9 (R220, upc 39 to 73). -/
def u1At39 : List Word :=
  [0x14567000, 0x15540000, 0x0B200001, 0x09252000, 0x07200000, 0x13020000, 0x11032000,
   0x14674000, 0x15650000, 0x0B200001, 0x09262000, 0x07200000, 0x13320000, 0x11002000,
   0x14745000, 0x15760000, 0x0B200001, 0x09272000, 0x07200000, 0x13020000, 0x11032000,
   0x14456000, 0x15470000, 0x0B200001, 0x09242000, 0x07200000, 0x13320000, 0x11002000,
   0x14567000, 0x15540000, 0x0B200001, 0x09252000, 0x07200000, 0x13020000, 0x11032000]

/-- Round groups 10 to 14 (R220, upc 74 to 108). -/
def u1At74 : List Word :=
  [0x14674000, 0x15650000, 0x0B200002, 0x09262000, 0x07200000, 0x13320000, 0x12002000,
   0x14745000, 0x15760000, 0x0B200002, 0x09272000, 0x07200000, 0x13020000, 0x12032000,
   0x14456000, 0x15470000, 0x0B200002, 0x09242000, 0x07200000, 0x13320000, 0x12002000,
   0x14567000, 0x15540000, 0x0B200002, 0x09252000, 0x07200000, 0x13020000, 0x12032000,
   0x14674000, 0x15650000, 0x0B200002, 0x09262000, 0x07200000, 0x13320000, 0x12002000]

/-- Round groups 15 to 19 (R220, upc 109 to 143). -/
def u1At109 : List Word :=
  [0x14745000, 0x15760000, 0x0B200003, 0x09272000, 0x07200000, 0x13020000, 0x11032000,
   0x14456000, 0x15470000, 0x0B200003, 0x09242000, 0x07200000, 0x13320000, 0x11002000,
   0x14567000, 0x15540000, 0x0B200003, 0x09252000, 0x07200000, 0x13020000, 0x11032000,
   0x14674000, 0x15650000, 0x0B200003, 0x09262000, 0x07200000, 0x13320000, 0x11002000,
   0x14745000, 0x15760000, 0x0B200003, 0x09272000, 0x07200000, 0x13020000, 0x11032000]

/-- Feed-forward, store, END (R220, upc 144 to 148). -/
def u1At144 : List Word :=
  [0x09001000, 0x0A001000, 0x02000000, 0x04000010, 0x00000000]

/-- U1's ROM: the 149 words of R220. -/
def u1 : List Word :=
  u1At0 ++ u1At12 ++ u1At32 ++ u1At39 ++ u1At74 ++ u1At109 ++ u1At144

/-! ### U2 (R270) -/

/-- Load state and block, byte-swap (R270, upc 0 to 11). -/
def u2At0 : List Word :=
  [0x01000000, 0x01100010, 0x05200000, 0x05310000, 0x01400040, 0x01500050, 0x01600060,
   0x01700070, 0x08440000, 0x08550000, 0x08660000, 0x08770000]

/-- Iterations 0 to 3 (R270, upc 12 to 39). -/
def u2At12 : List Word :=
  [0x0C800000, 0x09848000, 0x05920000, 0x20238000, 0x21398000, 0x22450000, 0x23467000,
   0x0C800001, 0x09858000, 0x05920000, 0x20238000, 0x21398000, 0x22560000, 0x23574000,
   0x0C800002, 0x09868000, 0x05920000, 0x20238000, 0x21398000, 0x22670000, 0x23645000,
   0x0C800003, 0x09878000, 0x05920000, 0x20238000, 0x21398000, 0x22740000, 0x23756000]

/-- Iterations 4 to 7 (R270, upc 40 to 67). -/
def u2At40 : List Word :=
  [0x0C800004, 0x09848000, 0x05920000, 0x20238000, 0x21398000, 0x22450000, 0x23467000,
   0x0C800005, 0x09858000, 0x05920000, 0x20238000, 0x21398000, 0x22560000, 0x23574000,
   0x0C800006, 0x09868000, 0x05920000, 0x20238000, 0x21398000, 0x22670000, 0x23645000,
   0x0C800007, 0x09878000, 0x05920000, 0x20238000, 0x21398000, 0x22740000, 0x23756000]

/-- Iterations 8 to 11 (R270, upc 68 to 95). -/
def u2At68 : List Word :=
  [0x0C800008, 0x09848000, 0x05920000, 0x20238000, 0x21398000, 0x22450000, 0x23467000,
   0x0C800009, 0x09858000, 0x05920000, 0x20238000, 0x21398000, 0x22560000, 0x23574000,
   0x0C80000A, 0x09868000, 0x05920000, 0x20238000, 0x21398000, 0x22670000, 0x23645000,
   0x0C80000B, 0x09878000, 0x05920000, 0x20238000, 0x21398000, 0x22740000, 0x23756000]

/-- Iterations 12 to 15, with no schedule update (R270, upc 96 to 115). -/
def u2At96 : List Word :=
  [0x0C80000C, 0x09848000, 0x05920000, 0x20238000, 0x21398000, 0x0C80000D, 0x09858000,
   0x05920000, 0x20238000, 0x21398000, 0x0C80000E, 0x09868000, 0x05920000, 0x20238000,
   0x21398000, 0x0C80000F, 0x09878000, 0x05920000, 0x20238000, 0x21398000]

/-- Feed-forward, store, END (R270, upc 116 to 120). -/
def u2At116 : List Word :=
  [0x09220000, 0x09331000, 0x02020000, 0x02030010, 0x00000000]

/-- U2's ROM: the 121 words of R270. -/
def u2 : List Word :=
  u2At0 ++ u2At12 ++ u2At40 ++ u2At68 ++ u2At96 ++ u2At116

end Sys2Proof.Machine.Rom
end

