-- ==== Sys2Proof/Machine/State.lean ====
section
/-! DEFINITION. The state of the block as plain data (R30 to R48), the outside world's inputs and outputs as lists,
the reasons a step can stop, and the state after reset (R48). -/

namespace Sys2Proof.Machine

/-! ### The bus (R103) -/

/-- A host bus transaction (R103). `off` is the 9-bit window offset, `n` the size in bytes (any number, so that a size
outside the legal ones can be answered BUSERR, R142 a), `data` the little-endian value whose low `n` bytes a write
carries. -/
inductive Transaction where
  | read (off : BitVec 9) (n : Nat)
  | write (off : BitVec 9) (n : Nat) (data : BitVec 128)
  deriving DecidableEq, Repr

/-- A response on the bus (R103): OKAY to a write, OKAY to a read with its `n` bytes as a little-endian value, or
BUSERR. -/
inductive Response where
  | okay
  | okayData (n : Nat) (data : BitVec 128)
  | busErr
  deriving DecidableEq, Repr

/-! ### Memory (R70, R45, R48) -/

/-- The bytes of the data regions, by window offset. An address that is not listed has not been written since reset and
has NO value (R45, R48): reading it is the fault Uninit. Canonical form: addresses strictly rising (`Memory.wf`). -/
abbrev Memory := List Host.Cell

/-! ### Units (R41 to R45) -/

/-- The internal state of one unit. -/
structure UnitState where
  /-- V[0..15] (R41). -/
  v : Vector Vec 16
  /-- S[0..15] (R42). -/
  s : Vector Word 16
  /-- The written flag of each V register (R45). -/
  vWritten : Vector Bool 16
  /-- The written flag of each S register (R45). -/
  sWritten : Vector Bool 16
  /-- The micro-program counter (R43). -/
  upc : BitVec 8
  deriving DecidableEq, Repr

/-- A unit after reset (R48): idle, upc 0, every register unwritten. The spec gives the registers no value; the bits
held here are 0, a DESIGN CHOICE (notes/assumptions/3.md) that no operation can read, because the flags are clear. -/
def UnitState.reset : UnitState where
  v := Vector.replicate 16 Vec.zero
  s := Vector.replicate 16 0
  vWritten := Vector.replicate 16 false
  sWritten := Vector.replicate 16 false
  upc := 0

/-! ### The state (R30) -/

/-- The whole machine: the block's state (R30), its ROMs as data, and the outside world as data. -/
structure State where
  /-- The window bytes of U1.STATE, U1.BLOCK, U2.STATE and U2.BLOCK that have been written (R32 to R34, R45). -/
  mem : Memory
  /-- STATUS.CMD_ERR (R37). -/
  cmdErr : Bool
  /-- U1's registers and upc. -/
  u1 : UnitState
  /-- U2's registers and upc. -/
  u2 : UnitState
  /-- The command in progress (R46): the unit that runs, whose CMD write is held without a response (R145). -/
  running : Option UnitId
  /-- U1's micro-program (R220). No step changes it (R89). -/
  rom1 : List Word
  /-- U2's micro-program (R270). No step changes it (R89). -/
  rom2 : List Word
  /-- The model's own: host accesses the port has not accepted yet, oldest first (R84). -/
  pending : List Transaction
  /-- The model's own: responses given, newest first (R103, R145). -/
  responses : List Response
  /-- The model's own: the platform's reset signal, one sample a step; past its end the signal is not asserted (R340). -/
  resetLine : List Bool
  deriving DecidableEq, Repr

/-- The block right after reset (R48, R340): no data byte written, CMD_ERR 0, both units idle, the fixed ROMs; nothing
pending, nothing answered, reset not asserted (notes/assumptions/4.md, 5.md). -/
def State.reset : State where
  mem := []
  cmdErr := false
  u1 := UnitState.reset
  u2 := UnitState.reset
  running := none
  rom1 := Rom.u1
  rom2 := Rom.u2
  pending := []
  responses := []
  resetLine := []

/-! ### Stops (R301, R303) -/

/-- What an Uninit fault records (R301, R305). -/
inductive Location where
  /-- A window offset: the lowest unwritten one. -/
  | window (off : Nat)
  /-- Vector register `r` of unit `u`. -/
  | vreg (u : UnitId) (r : Reg)
  /-- Scalar register `r` of unit `u`. -/
  | sreg (u : UnitId) (r : Reg)
  deriving DecidableEq, Repr

/-- The model's faults. -/
inductive Fault where
  /-- Uninit (R45, R301): raised by a host read, by SHA1_COMPRESS and SHA256_COMPRESS, and by a micro-operation, that
  reads a byte nothing has written since reset or a register nothing has written since the command's start. Safe: the
  hardware goes on with whatever bits it holds, the model stops (R303). -/
  | uninit (what : Location)
  deriving DecidableEq, Repr

/-- The model's refusals. -/
inductive Refusal where
  /-- The instruction has no meaning in the model yet; raised by exec's arms alone. Safe. -/
  | notModelled (mnemonic : String)
  /-- Refused (R116, R301): unit `u` met a reserved micro-instruction at ROM index `upc`. Raised by fetch and by a
  micro-operation that R116 reserves on the executing unit. Safe; unreachable with the fixed ROMs. -/
  | reserved (u : UnitId) (upc : BitVec 8)
  /-- Unit `u`'s ROM has no word at `upc`: a test ROM without END (notes/assumptions/6.md). Raised by fetch. Safe;
  unreachable with the fixed ROMs. -/
  | noRomWord (u : UnitId) (upc : BitVec 8)
  /-- A micro-operation outside a command: no unit executes (R170, R171). Raised by the micro-operations. Safe; step
  never runs one so. -/
  | noCommandInProgress
  deriving DecidableEq, Repr

/-- The outcome of a step. -/
abbrev Out := Host.Outcome State Fault Refusal

end Sys2Proof.Machine
end

