-- ==== Sys2Proof/Machine/Flags.lean ====
section
/-! DEFINITION. The block's one flag, STATUS.CMD_ERR (R37, R40): no micro-operation reads or writes it. -/

namespace Sys2Proof.Machine

/-- An illegal command word sets CMD_ERR (R37, R149). -/
def State.setCmdErr (s : State) : State := { s with cmdErr := true }

/-- A write to STATUS clears CMD_ERR when its bit 0 is 1; its other bits are ignored (R37, R144). -/
def State.writeStatus (s : State) (data : Word) : State :=
  if data.getLsbD 0 then { s with cmdErr := false } else s

/-- The value STATUS reads as: `zext_32(CMD_ERR)` (R37, R143). -/
def State.statusWord (s : State) : Word := if s.cmdErr then 1 else 0

end Sys2Proof.Machine
end

