-- ==== Sys2Proof/Machine/Operands.lean ====
section
/-! DEFINITION. Operands: the word operators (R16), lanes (R15), byte order (R72), and a unit's registers (R41 to R45). -/

namespace Sys2Proof.Machine

/-! ### Word operators (R16) -/

/-- ROL(a, n), for 0 < n < 32 (R16). -/
def rol (a : Word) (n : Nat) : Word := (a <<< n) ||| (a >>> (32 - n))

/-- ROR(a, n) = ROL(a, 32 - n) (R16). -/
def ror (a : Word) (n : Nat) : Word := rol a (32 - n)

/-- SHR(a, n): zero fill (R16). -/
def shr (a : Word) (n : Nat) : Word := a >>> n

/-- BSWAP32(a) = a[7:0] : a[15:8] : a[23:16] : a[31:24] (R16). -/
def bswap32 (a : Word) : Word :=
  a.extractLsb' 0 8 ++ a.extractLsb' 8 8 ++ a.extractLsb' 16 8 ++ a.extractLsb' 24 8

/-! ### Lanes (R15) -/

/-- `lane(v, i)` (R15). -/
def lane (v : Vec) : Fin 4 → Word
  | 0 => v.l0
  | 1 => v.l1
  | 2 => v.l2
  | 3 => v.l3

/-- The 128 bits of a vector, `l3 : l2 : l1 : l0` (R15). -/
def vecBits (v : Vec) : BitVec 128 := v.l3 ++ v.l2 ++ v.l1 ++ v.l0

/-- A function on each lane. -/
def mapLanes (f : Word → Word) (x : Vec) : Vec := ⟨f x.l0, f x.l1, f x.l2, f x.l3⟩

/-- A function on the lanes of two vectors. -/
def zipLanes (f : Word → Word → Word) (x y : Vec) : Vec :=
  ⟨f x.l0 y.l0, f x.l1 y.l1, f x.l2 y.l2, f x.l3 y.l3⟩

/-! ### Byte order (R72): the one place where bytes become values and values bytes -/

/-- The little-endian value of bytes, lowest offset first (R17 MemRead, R72). -/
def leValue (w : Nat) : List Byte → BitVec w
  | [] => 0
  | b :: bs => (leValue w bs <<< 8) ||| b.setWidth w

/-- The `n` low bytes of a value, lowest offset first (R17 MemWrite, R72). -/
def leBytes {w : Nat} (x : BitVec w) : Nat → List Byte
  | 0 => []
  | n + 1 => x.setWidth 8 :: leBytes (x >>> 8) n

/-- The big-endian word of four bytes, as the message block is read (R33, R73). -/
def beWord (b0 b1 b2 b3 : Byte) : Word := b0 ++ b1 ++ b2 ++ b3

/-- A vector of four little-endian lanes from 16 bytes (R172). -/
def leVec (bs : List Byte) : Vec :=
  ⟨leValue 32 (bs.take 4), leValue 32 ((bs.drop 4).take 4), leValue 32 ((bs.drop 8).take 4),
   leValue 32 ((bs.drop 12).take 4)⟩

/-- The 16 bytes of a vector, lane 0 lowest, each lane little-endian (R173). -/
def vecBytes (v : Vec) : List Byte :=
  leBytes v.l0 4 ++ leBytes v.l1 4 ++ leBytes v.l2 4 ++ leBytes v.l3 4

/-! ### Units and their registers -/

/-- The state of unit `u`. -/
def State.unit (s : State) : UnitId → UnitState
  | .u1 => s.u1
  | .u2 => s.u2

/-- Replace the state of unit `u`. -/
def State.setUnit (s : State) (u : UnitId) (x : UnitState) : State :=
  match u with
  | .u1 => { s with u1 := x }
  | .u2 => { s with u2 := x }

/-- Read `V[r]` of unit `u`; an unwritten register is Uninit (R45, R170, R301; 92_eei_decisions.md D11,
93_implementation_defined.md U3: `fault` on a read before a write). -/
def State.readV (s : State) (u : UnitId) (r : Reg) : Except Fault Vec :=
  if (s.unit u).vWritten[r] then .ok (s.unit u).v[r] else .error (.uninit (.vreg u r))

/-- Read `S[r]` of unit `u`; an unwritten register is Uninit (R45, R170, R301; 92_eei_decisions.md D11,
93_implementation_defined.md U3: `fault` on a read before a write). -/
def State.readS (s : State) (u : UnitId) (r : Reg) : Except Fault Word :=
  if (s.unit u).sWritten[r] then .ok (s.unit u).s[r] else .error (.uninit (.sreg u r))

/-- `V[r] <- x` in a unit; the register is written from now on (R45). -/
def UnitState.setV (t : UnitState) (r : Reg) (x : Vec) : UnitState :=
  { t with v := t.v.set r.val x r.isLt, vWritten := t.vWritten.set r.val true r.isLt }

/-- `S[r] <- x` in a unit; the register is written from now on (R45). -/
def UnitState.setS (t : UnitState) (r : Reg) (x : Word) : UnitState :=
  { t with s := t.s.set r.val x r.isLt, sWritten := t.sWritten.set r.val true r.isLt }

/-- `V[r] <- x` on unit `u`. -/
def State.writeV (s : State) (u : UnitId) (r : Reg) (x : Vec) : State := s.setUnit u ((s.unit u).setV r x)

/-- `S[r] <- x` on unit `u`. -/
def State.writeS (s : State) (u : UnitId) (r : Reg) (x : Word) : State := s.setUnit u ((s.unit u).setS r x)

end Sys2Proof.Machine
end

