-- ==== Sys2Proof/Machine/Ops.lean ====
section
/-! DEFINITION. The shared operations: memory (R70 to R75), the frame every micro-operation runs in (R170, R171), the
start and the end of a command (R145, R171, R182), responses (R103), and reset (R340, R341).
The block takes no exception and has no return from one (R306, R307): a bus error is a response that changes nothing
else, and reset is the one event that abandons a command. -/

namespace Sys2Proof.Machine

/-! ### Memory -/

/-- Addresses strictly rising: the canonical form of a memory. -/
def Memory.wf : Memory → Bool
  | [] => true
  | [_] => true
  | (a, _) :: (b, y) :: rest => a < b && Memory.wf ((b, y) :: rest)

/-- The byte at an address, none if nothing has written it (R45). -/
def Memory.byte? : Memory → Nat → Option Byte
  | [], _ => none
  | (k, x) :: rest, a => if k = a then some x else Memory.byte? rest a

/-- Write one byte, keeping the canonical form (R17, R45). -/
def Memory.put : Memory → Nat → Byte → Memory
  | [], a, b => [(a, b)]
  | (k, x) :: rest, a, b =>
      if a < k then (a, b) :: (k, x) :: rest
      else if a = k then (a, b) :: rest
      else (k, x) :: Memory.put rest a b

/-- Read `n` bytes from `a` upwards, or the lowest unwritten address among them (R17, R45, R305). -/
def Memory.load (m : Memory) (a : Nat) : Nat → Except Nat (List Byte)
  | 0 => .ok []
  | n + 1 =>
    match m.byte? a with
    | none => .error a
    | some b =>
      match m.load (a + 1) n with
      | .ok bs => .ok (b :: bs)
      | .error e => .error e

/-- Write bytes from `a` upwards (R17). -/
def Memory.store (m : Memory) (a : Nat) : List Byte → Memory
  | [] => m
  | b :: bs => (m.put a b).store (a + 1) bs

/-- Read `n` window bytes; an unwritten one is Uninit with the lowest offset (R45, R140, R146, R147, R172, R174, R305;
93_implementation_defined.md U1, U2). -/
def State.loadBytes (s : State) (a n : Nat) : Except Fault (List Byte) :=
  match s.mem.load a n with
  | .ok bs => .ok bs
  | .error e => .error (.uninit (.window e))

/-- Write window bytes (R17 MemWrite, R45). -/
def State.storeBytes (s : State) (a : Nat) (bs : List Byte) : State := { s with mem := s.mem.store a bs }

/-! ### Responses -/

/-- The port returns a response to the host (R103). -/
def State.respond (s : State) (r : Response) : State := { s with responses := r :: s.responses }

/-! ### Units -/

/-- Set `upc` of unit `u`. -/
def State.setUpc (s : State) (u : UnitId) (x : BitVec 8) : State :=
  s.setUnit u { s.unit u with upc := x }

/-- `upc <- upc + 1` (R171). -/
def State.advance (s : State) (u : UnitId) : State := s.setUpc u ((s.unit u).upc + 1)

/-- A unit at a command's start: `upc` 0 and no register holds a value (R44, R171). The bits stay; only the written
flags are cleared. -/
def UnitState.started (t : UnitState) : UnitState :=
  { t with vWritten := Vector.replicate 16 false, sWritten := Vector.replicate 16 false, upc := 0 }

/-- The start of a compression command on unit `u` (R145, R171): the port holds from now on. -/
def State.startUnit (s : State) (u : UnitId) : State :=
  { s.setUnit u (s.unit u).started with running := some u }

/-- The end of a command: the held CMD write gets its OKAY and the port is free (R145, R182). -/
def State.complete (s : State) : State := { s.respond .okay with running := none }

/-- What a command may do only if all its input bytes are written: STATE, then BLOCK, the lowest unwritten offset
recorded (R146, R147, R305). -/
def State.checkInputs (s : State) (u : UnitId) : Except Fault Unit := do
  let _ ← s.loadBytes (unitBase u) (stateBytes u)
  let _ ← s.loadBytes (unitBase u + blockOff) blockBytes
  return ()

/-- A compression command as the port sees it start (R145, R146, R147, R171): the Uninit check of its inputs before
anything is written (R305), then the unit's micro-program from `upc` 0. -/
def startCommand (u : UnitId) (s : State) : Out :=
  match s.checkInputs u with
  | .ok _ => .next (s.startUnit u)
  | .error f => .fault f

/-- The frame every micro-operation runs in (R170, R171). `k u` is the operation's own effect on the executing unit
`u`; then `upc` advances by 1. Outside a command no unit executes; an operation R116 reserves on the unit is refused. -/
def microOp (i : Instr) (s : State) (k : UnitId → Except Fault State) : Out :=
  match s.running with
  | none => .refused .noCommandInProgress
  | some u =>
    if i.wellFormed (.rom u) then
      match k u with
      | .ok t => .next (t.advance u)
      | .error f => .fault f
    else .refused (.reserved u (s.unit u).upc)

/-! ### Reset -/

/-- Reset (R340, R341): every piece of the block's state takes the value of R48, whatever a command in progress had
done, and that command's CMD write gets no response. The ROMs and the outside world's data stay
(notes/assumptions/5.md). -/
def State.platformReset (s : State) : State :=
  { State.reset with
    rom1 := s.rom1, rom2 := s.rom2, pending := s.pending, responses := s.responses, resetLine := s.resetLine }

end Sys2Proof.Machine
end

