-- ==== Sys2Proof/Machine/Arith.lean ====
section
/-! DEFINITION. Addition modulo 2^32 and the constant fetches (R180, R181, R183, R184). -/

namespace Sys2Proof.Machine

/-- VADD Vd, Vn, Vm (R180): lane by lane, a carry out of a lane discarded. -/
def execVadd (d n m : Reg) (s : State) : Out :=
  microOp (.vadd d n m) s fun u => do
    let x ← s.readV u n
    let y ← s.readV u m
    return s.writeV u d (zipLanes (· + ·) x y)

/-- SADD Sd, Sn, Sm (R181). -/
def execSadd (d n m : Reg) (s : State) : Out :=
  microOp (.sadd d n m) s fun u => do
    let x ← s.readS u n
    let y ← s.readS u m
    return s.writeS u d (x + y)

/-- VDUPK Vd, #k (R183): K1[k] in every lane. -/
def execVdupk (d : Reg) (k : Fin 4) (s : State) : Out :=
  microOp (.vdupk d k) s fun u => .ok (s.writeV u d ⟨k1 k, k1 k, k1 k, k1 k⟩)

/-- VLDK Vd, #g (R184): K256[4g .. 4g+3]. -/
def execVldk (d : Reg) (g : Fin 16) (s : State) : Out :=
  microOp (.vldk d g) s fun u =>
    .ok (s.writeV u d ⟨k256 (4 * g), k256 (4 * g + 1), k256 (4 * g + 2), k256 (4 * g + 3)⟩)

end Sys2Proof.Machine
end

