-- ==== Sys2Proof/Machine/Command.lean ====
section
/-! DEFINITION. The host's commands (R145 to R148). -/

namespace Sys2Proof.Machine

/-- NOP (R148): changes no state and completes at once, with OKAY (R145). -/
def execNop (s : State) : Out := .next (s.respond .okay)

/-- SHA1_COMPRESS (R146): start U1 on its micro-program; END completes the command. -/
def execSha1Compress (s : State) : Out := startCommand .u1 s

/-- SHA256_COMPRESS (R147): start U2 on its micro-program; END completes the command. -/
def execSha256Compress (s : State) : Out := startCommand .u2 s

end Sys2Proof.Machine
end

