-- ==== Sys2Proof/Machine/Move.lean ====
section
/-! DEFINITION. Moves, lane extraction and byte swap (R176 to R179). -/

namespace Sys2Proof.Machine

/-- VMOV Vd, Vn (R176). -/
def execVmov (d n : Reg) (s : State) : Out :=
  microOp (.vmov d n) s fun u => do
    let x ← s.readV u n
    return s.writeV u d x

/-- SMOV Sd, Sn (R177). -/
def execSmov (d n : Reg) (s : State) : Out :=
  microOp (.smov d n) s fun u => do
    let x ← s.readS u n
    return s.writeS u d x

/-- SGETL Sd, Vn, #i (R179). -/
def execSgetl (d n : Reg) (i : Fin 4) (s : State) : Out :=
  microOp (.sgetl d n i) s fun u => do
    let x ← s.readV u n
    return s.writeS u d (lane x i)

/-- VREV32 Vd, Vn (R178). -/
def execVrev32 (d n : Reg) (s : State) : Out :=
  microOp (.vrev32 d n) s fun u => do
    let x ← s.readV u n
    return s.writeV u d (mapLanes bswap32 x)

end Sys2Proof.Machine
end

