-- ==== Sys2Proof/Machine/Sequencer.lean ====
section
/-! DEFINITION. END and the micro-program fetch (R80, R171, R182). -/

namespace Sys2Proof.Machine

/-- END (R182): `upc <- 0` and the command completes. -/
def execEndOp (s : State) : Out :=
  match s.running with
  | none => .refused .noCommandInProgress
  | some u => .next (s.setUpc u 0).complete

/-- `ROM_u` (R80). -/
def State.rom (s : State) : UnitId → List Word
  | .u1 => s.rom1
  | .u2 => s.rom2

/-- Replace a unit's ROM: what a test ROM stands for (95_test_vectors.md section 3). No step does this (R89). -/
def State.setRom (s : State) (u : UnitId) (r : List Word) : State :=
  match u with
  | .u1 => { s with rom1 := r }
  | .u2 => { s with rom2 := r }

/-- `ROM_u[upc]` (R80, R171), none past the ROM's end. -/
def State.fetchWord? (s : State) (u : UnitId) : Option Word := (s.rom u)[(s.unit u).upc.toNat]?

/-- A ROM with the word at index `k` replaced, filled up with END words if it is shorter. -/
def romSet : List Word → Nat → Word → List Word
  | [], 0, w => [w]
  | [], k + 1, w => 0 :: romSet [] k w
  | _ :: rest, 0, w => w :: rest
  | x :: rest, k + 1, w => x :: romSet rest k w

end Sys2Proof.Machine
end

