-- ==== Sys2Proof/Machine/Sha1.lean ====
section
/-! DEFINITION. The SHA-1 micro-operations of U1 (R209 to R215) and the mixing functions (R201). -/

namespace Sys2Proof.Machine

/-! ### Mixing functions, in the FIPS form (R201) -/

/-- choice(x, y, z) (R201). -/
def choice (x y z : Word) : Word := (x &&& y) ^^^ (~~~x &&& z)

/-- parity(x, y, z) (R201). -/
def parity (x y z : Word) : Word := x ^^^ y ^^^ z

/-- majority(x, y, z) (R201). -/
def majority (x y z : Word) : Word := (x &&& y) ^^^ (x &&& z) ^^^ (y &&& z)

/-! ### Four rounds (R209) -/

/-- One pass of the loop of SHA1Round4 (R209): `(X, Y)` and the W + K word of the round. -/
def sha1Pass (f : Word → Word → Word → Word) (p : Vec × Word) (wk : Word) : Vec × Word :=
  let x := p.1
  let y := p.2 + rol x.l0 5 + f x.l1 x.l2 x.l3 + wk
  (⟨y, x.l0, rol x.l1 30, x.l2⟩, x.l3)

/-- `SHA1Round4(f, X, Y, Wv)` (R209): four passes, the last Y discarded. -/
def sha1Round4 (f : Word → Word → Word → Word) (x : Vec) (y : Word) (wv : Vec) : Vec :=
  (sha1Pass f (sha1Pass f (sha1Pass f (sha1Pass f (x, y) wv.l0) wv.l1) wv.l2) wv.l3).1

/-- The effect SHA1C, SHA1P and SHA1M share: `V[d] <- SHA1Round4(f, V[d], S[n], V[m])` (R210 to R212). -/
def sha1RoundEffect (f : Word → Word → Word → Word) (d n m : Reg) (s : State) (u : UnitId) : Except Fault State := do
  let x ← s.readV u d
  let y ← s.readS u n
  let w ← s.readV u m
  return s.writeV u d (sha1Round4 f x y w)

/-- SHA1C Vd, Sn, Vm (R210): four rounds with choice. -/
def execSha1c (d n m : Reg) (s : State) : Out := microOp (.sha1c d n m) s (sha1RoundEffect choice d n m s)

/-- SHA1P Vd, Sn, Vm (R211): four rounds with parity. -/
def execSha1p (d n m : Reg) (s : State) : Out := microOp (.sha1p d n m) s (sha1RoundEffect parity d n m s)

/-- SHA1M Vd, Sn, Vm (R212): four rounds with majority. -/
def execSha1m (d n m : Reg) (s : State) : Out := microOp (.sha1m d n m) s (sha1RoundEffect majority d n m s)

/-- SHA1H Sd, Sn (R213): ROL(S[n], 30). -/
def execSha1h (d n : Reg) (s : State) : Out :=
  microOp (.sha1h d n) s fun u => do
    let x ← s.readS u n
    return s.writeS u d (rol x 30)

/-! ### Schedule (R214, R215) -/

/-- SHA1SU0's value (R214): no rotation. -/
def sha1Su0 (x y z : Vec) : Vec :=
  ⟨x.l2 ^^^ x.l0 ^^^ z.l0, x.l3 ^^^ x.l1 ^^^ z.l1, y.l0 ^^^ x.l2 ^^^ z.l2, y.l1 ^^^ x.l3 ^^^ z.l3⟩

/-- SHA1SU1's value (R215): lane 3 takes ROL(T0, 2) in place of the W[t-3] term. -/
def sha1Su1 (x y : Vec) : Vec :=
  let t0 := x.l0 ^^^ y.l1
  let t1 := x.l1 ^^^ y.l2
  let t2 := x.l2 ^^^ y.l3
  let t3 := x.l3
  ⟨rol t0 1, rol t1 1, rol t2 1, rol t3 1 ^^^ rol t0 2⟩

/-- SHA1SU0 Vd, Vn, Vm (R214). -/
def execSha1su0 (d n m : Reg) (s : State) : Out :=
  microOp (.sha1su0 d n m) s fun u => do
    let x ← s.readV u d
    let y ← s.readV u n
    let z ← s.readV u m
    return s.writeV u d (sha1Su0 x y z)

/-- SHA1SU1 Vd, Vn (R215). -/
def execSha1su1 (d n : Reg) (s : State) : Out :=
  microOp (.sha1su1 d n) s fun u => do
    let x ← s.readV u d
    let y ← s.readV u n
    return s.writeV u d (sha1Su1 x y)

end Sys2Proof.Machine
end

