-- ==== Sys2Proof/Machine/Sha256.lean ====
section
/-! DEFINITION. The SHA-256 micro-operations of U2 (R259 to R263) and the functions of R251. -/

namespace Sys2Proof.Machine

/-! ### The functions of R251; SHR brings in zeros -/

/-- Sigma0 (R251). -/
def bigSigma0 (x : Word) : Word := ror x 2 ^^^ ror x 13 ^^^ ror x 22

/-- Sigma1 (R251). -/
def bigSigma1 (x : Word) : Word := ror x 6 ^^^ ror x 11 ^^^ ror x 25

/-- sigma0 (R251). -/
def smallSigma0 (x : Word) : Word := ror x 7 ^^^ ror x 18 ^^^ shr x 3

/-- sigma1 (R251). -/
def smallSigma1 (x : Word) : Word := ror x 17 ^^^ ror x 19 ^^^ shr x 10

/-! ### Four rounds (R259) -/

/-- One pass of the loop of SHA256Hash4 (R259): `(X, Y)` and the W + K word of the round. -/
def sha256Pass (p : Vec × Vec) (wk : Word) : Vec × Vec :=
  let x := p.1
  let y := p.2
  let t1 := y.l3 + bigSigma1 y.l0 + choice y.l0 y.l1 y.l2 + wk
  let newE := t1 + x.l3
  let newA := t1 + bigSigma0 x.l0 + majority x.l0 x.l1 x.l2
  (⟨newA, x.l0, x.l1, x.l2⟩, ⟨newE, y.l0, y.l1, y.l2⟩)

/-- `SHA256Hash4(X, Y, Wv, part1)` (R259): both halves after four passes; part1 true is `.1`, false is `.2`. -/
def sha256Hash4 (x y wv : Vec) : Vec × Vec :=
  sha256Pass (sha256Pass (sha256Pass (sha256Pass (x, y) wv.l0) wv.l1) wv.l2) wv.l3

/-- SHA256H Vd, Vn, Vm (R260): X is V[d], Y is V[n]; the abcd half. -/
def execSha256h (d n m : Reg) (s : State) : Out :=
  microOp (.sha256h d n m) s fun u => do
    let x ← s.readV u d
    let y ← s.readV u n
    let w ← s.readV u m
    return s.writeV u d (sha256Hash4 x y w).1

/-- SHA256H2 Vd, Vn, Vm (R261): X is V[n], Y is V[d]; the efgh half. -/
def execSha256h2 (d n m : Reg) (s : State) : Out :=
  microOp (.sha256h2 d n m) s fun u => do
    let y ← s.readV u d
    let x ← s.readV u n
    let w ← s.readV u m
    return s.writeV u d (sha256Hash4 x y w).2

/-! ### Schedule (R262, R263) -/

/-- SHA256SU0's value (R262). -/
def sha256Su0 (x y : Vec) : Vec :=
  ⟨smallSigma0 x.l1 + x.l0, smallSigma0 x.l2 + x.l1, smallSigma0 x.l3 + x.l2, smallSigma0 y.l0 + x.l3⟩

/-- SHA256SU1's value (R263): lanes 2 and 3 use lanes 0 and 1 of this same result. -/
def sha256Su1 (x y z : Vec) : Vec :=
  let r0 := smallSigma1 z.l2 + x.l0 + y.l1
  let r1 := smallSigma1 z.l3 + x.l1 + y.l2
  let r2 := smallSigma1 r0 + x.l2 + y.l3
  let r3 := smallSigma1 r1 + x.l3 + z.l0
  ⟨r0, r1, r2, r3⟩

/-- SHA256SU0 Vd, Vn (R262). -/
def execSha256su0 (d n : Reg) (s : State) : Out :=
  microOp (.sha256su0 d n) s fun u => do
    let x ← s.readV u d
    let y ← s.readV u n
    return s.writeV u d (sha256Su0 x y)

/-- SHA256SU1 Vd, Vn, Vm (R263). -/
def execSha256su1 (d n m : Reg) (s : State) : Out :=
  microOp (.sha256su1 d n m) s fun u => do
    let x ← s.readV u d
    let y ← s.readV u n
    let z ← s.readV u m
    return s.writeV u d (sha256Su1 x y z)

end Sys2Proof.Machine
end

