-- ==== Sys2Proof/Machine/Transfer.lean ====
section
/-! DEFINITION. Loads and stores between a unit's registers and its own window bytes (R172 to R175). -/

namespace Sys2Proof.Machine

/-- The window offset a unit-local offset names: `base(u) + imm` (R75, R172). -/
def localAddr (u : UnitId) (imm : BitVec 12) : Nat := unitBase u + imm.toNat

/-- VLD Vd, [imm] (R172): four little-endian lanes from 16 bytes. -/
def execVld (d : Reg) (imm : BitVec 12) (s : State) : Out :=
  microOp (.vld d imm) s fun u => do
    let bs ← s.loadBytes (localAddr u imm) 16
    return s.writeV u d (leVec bs)

/-- VST [imm], Vn (R173): four little-endian lanes to 16 bytes. -/
def execVst (imm : BitVec 12) (n : Reg) (s : State) : Out :=
  microOp (.vst imm n) s fun u => do
    let x ← s.readV u n
    return s.storeBytes (localAddr u imm) (vecBytes x)

/-- SLD Sd, [imm] (R174): one little-endian word from 4 bytes. -/
def execSld (d : Reg) (imm : BitVec 12) (s : State) : Out :=
  microOp (.sld d imm) s fun u => do
    let bs ← s.loadBytes (localAddr u imm) 4
    return s.writeS u d (leValue 32 bs)

/-- SST [imm], Sn (R175): one little-endian word to 4 bytes. -/
def execSst (imm : BitVec 12) (n : Reg) (s : State) : Out :=
  microOp (.sst imm n) s fun u => do
    let x ← s.readS u n
    return s.storeBytes (localAddr u imm) (leBytes x 4)

end Sys2Proof.Machine
end

