-- ==== Sys2Proof/Machine/Dispatch.lean ====
section
/-! DEFINITION. exec: one arm per constructor of Instr, each one call of that instruction's meaning. -/

namespace Sys2Proof.Machine

/-- The meaning of an instruction. Commands run from the port (R145), micro-operations on the executing unit (R170). -/
def exec (i : Instr) (s : State) : Host.Outcome State Fault Refusal :=
  match i with
  -- host commands (R101)
  | .nop => Sys2Proof.Machine.execNop s
  | .sha1Compress => Sys2Proof.Machine.execSha1Compress s
  | .sha256Compress => Sys2Proof.Machine.execSha256Compress s
  -- micro-operations of both units (R114)
  | .endOp => Sys2Proof.Machine.execEndOp s
  | .vld d imm => Sys2Proof.Machine.execVld d imm s
  | .vst imm n => Sys2Proof.Machine.execVst imm n s
  | .sld d imm => Sys2Proof.Machine.execSld d imm s
  | .sst imm n => Sys2Proof.Machine.execSst imm n s
  | .vmov d n => Sys2Proof.Machine.execVmov d n s
  | .smov d n => Sys2Proof.Machine.execSmov d n s
  | .sgetl d n lane => Sys2Proof.Machine.execSgetl d n lane s
  | .vrev32 d n => Sys2Proof.Machine.execVrev32 d n s
  | .vadd d n m => Sys2Proof.Machine.execVadd d n m s
  | .sadd d n m => Sys2Proof.Machine.execSadd d n m s
  -- constant fetches (R183, R184)
  | .vdupk d k => Sys2Proof.Machine.execVdupk d k s
  | .vldk d g => Sys2Proof.Machine.execVldk d g s
  -- SHA-1 micro-operations, U1 (R210 to R215)
  | .sha1c d n m => Sys2Proof.Machine.execSha1c d n m s
  | .sha1p d n m => Sys2Proof.Machine.execSha1p d n m s
  | .sha1m d n m => Sys2Proof.Machine.execSha1m d n m s
  | .sha1h d n => Sys2Proof.Machine.execSha1h d n s
  | .sha1su0 d n m => Sys2Proof.Machine.execSha1su0 d n m s
  | .sha1su1 d n => Sys2Proof.Machine.execSha1su1 d n s
  -- SHA-256 micro-operations, U2 (R260 to R263)
  | .sha256h d n m => Sys2Proof.Machine.execSha256h d n m s
  | .sha256h2 d n m => Sys2Proof.Machine.execSha256h2 d n m s
  | .sha256su0 d n => Sys2Proof.Machine.execSha256su0 d n s
  | .sha256su1 d n m => Sys2Proof.Machine.execSha256su1 d n m s

end Sys2Proof.Machine
end

