-- ==== Sys2Proof/Machine/Port.lean ====
section
/-! DEFINITION. What a step is made of: the sequencer's fetch, decode and execute (R171), and the bus port's accesses
(R140 to R149, R305). -/

namespace Sys2Proof.Machine

/-! ### The sequencer -/

/-- One turn of the loop of RunUnit (R171): fetch `ROM_u[upc]`, decode it for the unit, execute it. A reserved word is
refused with its ROM index (R116, R301). -/
def microStep (u : UnitId) (s : State) : Out :=
  match s.fetchWord? u with
  | none => .refused (.noRomWord u (s.unit u).upc)
  | some w =>
    match decode (.rom u) w with
    | .ok i => exec i s
    | .error _ => .refused (.reserved u (s.unit u).upc)

/-! ### The port -/

/-- A bus error: the response BUSERR and no other change (R142). -/
def busError (s : State) : Out := .next (s.respond .busErr)

/-- `CtrlRead(off)` (R143): CMD reads 0, STATUS its flag, CAPS its constant (R35 to R37). -/
def ctrlRead (off : Nat) (s : State) : Word :=
  if off = cmdOff then 0
  else if off = statusOff then s.statusWord
  else 0x00000003

/-- `HostRead(off, n)` (R140). -/
def hostRead (off n : Nat) (s : State) : Out :=
  if dataAccess off n then
    match s.loadBytes off n with
    | .ok bs => .next (s.respond (.okayData n (leValue 128 bs)))
    | .error f => .fault f
  else if ctrlAccess off n then .next (s.respond (.okayData n ((ctrlRead off s).setWidth 128)))
  else busError s

/-- `Command(w)` (R145): a legal word runs its command, which gives the OKAY when it completes; an illegal word sets
CMD_ERR and gets OKAY (R149). -/
def command (w : Word) (s : State) : Out :=
  match decode .cmd w with
  | .ok i => exec i s
  | .error _ => .next (s.setCmdErr.respond .okay)

/-- `HostWrite(off, n, data)` (R141); the bus-error conditions come first (R305), a write to CAPS among them (R142 d). -/
def hostWrite (off n : Nat) (data : BitVec 128) (s : State) : Out :=
  if dataAccess off n then .next ((s.storeBytes off (leBytes data n)).respond .okay)
  else if ctrlAccess off n && off = cmdOff then command (data.setWidth 32) s
  else if ctrlAccess off n && off = statusOff then .next ((s.writeStatus (data.setWidth 32)).respond .okay)
  else busError s

/-- The port performs a host transaction (R103). -/
def hostAccess : Transaction → State → Out
  | .read off n, s => hostRead off.toNat n s
  | .write off n data, s => hostWrite off.toNat n data s

/-- The port's turn while no command is in progress: the oldest pending access, or nothing (R84, R325). -/
def portStep (s : State) : Out :=
  match s.pending with
  | [] => .next s
  | t :: rest => hostAccess t { s with pending := rest }

/-- The block's turn with reset not asserted: the executing unit's, or, between commands, the port's (R145). -/
def blockStep (s : State) : Out :=
  match s.running with
  | some u => microStep u s
  | none => portStep s

/-- Clock cycles the port holds for a command word (R145, R356). The model keeps no time; no step uses it. -/
def holdCycles (w : Word) : Nat :=
  match decode .cmd w with
  | .ok .sha1Compress => Config.latSha1
  | .ok .sha256Compress => Config.latSha256
  | _ => 1

/-! ### Placing a word where the next step fetches it -/

/-- Put `w` in the slot from which the next step takes its instruction, reset not asserted: for a command, a write of
`w` to CMD as the oldest pending access with the port free; for a micro-instruction, word `upc` of the unit's ROM with
that unit running. -/
def State.placeWord (s : State) (slot : Slot) (w : Word) : State :=
  match slot with
  | .cmd =>
      { s with running := none, pending := .write 0x100 4 (w.setWidth 128) :: s.pending, resetLine := [] }
  | .rom u =>
      { s.setRom u (romSet (s.rom u) (s.unit u).upc.toNat w) with running := some u, resetLine := [] }

end Sys2Proof.Machine
end

