-- ==== Sys2Proof/Machine/Step.lean ====
section
/-! DEFINITION. One step: a reset sample, then one micro-operation of the executing unit or one access of the port; and
where the host's probe places a word. -/

namespace Sys2Proof.Machine

/-- One step. An asserted reset sample is a reset, also inside a command (R340, R341); otherwise the block takes its
turn. The sample is used up. -/
def step (s : State) : Host.Outcome State Fault Refusal :=
  match s.resetLine with
  | [] => blockStep s
  | true :: rest => .next { s with resetLine := rest }.platformReset
  | false :: rest => blockStep { s with resetLine := rest }

/-- `s` with a table row's word stored where the next step fetches its instruction (notes/assumptions/1.md, 2.md). -/
def State.withFetchWord (s : State) (nbits w : Nat) : State :=
  s.placeWord (tableSlot (tableWord nbits w)) (tableWord nbits w)

end Sys2Proof.Machine
end

