-- ==== Sys2Proof/Machine/Reference.lean ====
section
/-! DEFINITION. The reference functions SHA1_COMPRESS_FN (R200) and SHA256_COMPRESS_FN (R250), written from their own
rules and sharing nothing with the micro-programs but the word functions; and the commands' whole effect in the form of
R146 and R147. The machine runs the micro-programs; these are what it is compared with (R223, R273). -/

namespace Sys2Proof.Machine

/-- The message words of a block, big-endian (R33, R73, R202). -/
def blockWords : List Byte → List Word
  | b0 :: b1 :: b2 :: b3 :: rest => beWord b0 b1 b2 b3 :: blockWords rest
  | _ => []

/-- Extend a schedule by `k` words, each computed from the words before it. -/
def extendSchedule (next : List Word → Word) : Nat → List Word → List Word
  | 0, ws => ws
  | k + 1, ws => extendSchedule next k (ws ++ [next ws])

/-! ### SHA-1 (R200 to R206) -/

/-- The five words A to E of the SHA-1 state, and the working variables a to e (R32, R200). -/
structure Sha1State where
  a : Word
  b : Word
  c : Word
  d : Word
  e : Word
  deriving DecidableEq, Repr

/-- W[t] from the words before it, for t of 16 or more (R202). -/
def sha1NextWord (ws : List Word) : Word :=
  let t := ws.length
  rol (ws.getD (t - 3) 0 ^^^ ws.getD (t - 8) 0 ^^^ ws.getD (t - 14) 0 ^^^ ws.getD (t - 16) 0) 1

/-- The message schedule W[0..79] of a block (R202). -/
def sha1Schedule (blk : List Byte) : List Word := extendSchedule sha1NextWord 64 (blockWords blk)

/-- The mixing function of round t, selected by the round index alone (R205). -/
def sha1F (t : Nat) : Word → Word → Word → Word :=
  if t < 20 then choice else if t < 40 then parity else if t < 60 then majority else parity

/-- `K1[t div 20]` (R203, R204). -/
def sha1K (t : Nat) : Word := k1 (Fin.ofNat 4 (t / 20))

/-- Round t with the sum K1 + W given (R204). -/
def sha1Round (f : Word → Word → Word → Word) (kw : Word) (x : Sha1State) : Sha1State :=
  { a := rol x.a 5 + f x.b x.c x.d + x.e + kw, b := x.a, c := rol x.b 30, d := x.c, e := x.d }

/-- Rounds `t` to `t + n - 1` over the schedule `ws` (R200, R204). -/
def sha1Rounds (ws : List Word) (t : Nat) : Nat → Sha1State → Sha1State
  | 0, x => x
  | n + 1, x => sha1Rounds ws (t + 1) n (sha1Round (sha1F t) (sha1K t + ws.getD t 0) x)

/-- Word-wise sum of the input state and the working variables (R206). -/
def Sha1State.add (h x : Sha1State) : Sha1State :=
  { a := h.a + x.a, b := h.b + x.b, c := h.c + x.c, d := h.d + x.d, e := h.e + x.e }

/-- SHA1_COMPRESS_FN (R200). -/
def sha1CompressFn (h : Sha1State) (blk : List Byte) : Sha1State :=
  h.add (sha1Rounds (sha1Schedule blk) 0 80 h)

/-! ### SHA-256 (R250 to R255) -/

/-- The eight words of the SHA-256 state, and the working variables a to h (R34, R250). -/
structure Sha256State where
  a : Word
  b : Word
  c : Word
  d : Word
  e : Word
  f : Word
  g : Word
  h : Word
  deriving DecidableEq, Repr

/-- W[t] from the words before it, for t of 16 or more (R252). -/
def sha256NextWord (ws : List Word) : Word :=
  let t := ws.length
  smallSigma1 (ws.getD (t - 2) 0) + ws.getD (t - 7) 0 + smallSigma0 (ws.getD (t - 15) 0) + ws.getD (t - 16) 0

/-- The message schedule W[0..63] of a block (R252). -/
def sha256Schedule (blk : List Byte) : List Word := extendSchedule sha256NextWord 48 (blockWords blk)

/-- One round with the sum K256 + W given (R250, R254). -/
def sha256Round (kw : Word) (x : Sha256State) : Sha256State :=
  let t1 := x.h + bigSigma1 x.e + choice x.e x.f x.g + kw
  let t2 := bigSigma0 x.a + majority x.a x.b x.c
  { a := t1 + t2, b := x.a, c := x.b, d := x.c, e := x.d + t1, f := x.e, g := x.f, h := x.g }

/-- Rounds `t` to `t + n - 1` over the schedule `ws` (R250, R254). -/
def sha256Rounds (ws : List Word) (t : Nat) : Nat → Sha256State → Sha256State
  | 0, x => x
  | n + 1, x => sha256Rounds ws (t + 1) n (sha256Round (k256 t + ws.getD t 0) x)

/-- Word-wise sum of the input state and the working variables (R255). -/
def Sha256State.add (x y : Sha256State) : Sha256State :=
  { a := x.a + y.a, b := x.b + y.b, c := x.c + y.c, d := x.d + y.d,
    e := x.e + y.e, f := x.f + y.f, g := x.g + y.g, h := x.h + y.h }

/-- SHA256_COMPRESS_FN (R250). -/
def sha256CompressFn (h : Sha256State) (blk : List Byte) : Sha256State :=
  h.add (sha256Rounds (sha256Schedule blk) 0 64 h)

/-! ### The commands' whole effect (R146, R147) -/

/-- `st = [MemRead(0x000 + 4*i, 4) for i in 0..4]` from U1.STATE's 20 bytes (R32, R146). -/
def sha1StateOf (bs : List Byte) : Sha1State :=
  { a := leValue 32 (bs.take 4), b := leValue 32 ((bs.drop 4).take 4), c := leValue 32 ((bs.drop 8).take 4),
    d := leValue 32 ((bs.drop 12).take 4), e := leValue 32 ((bs.drop 16).take 4) }

/-- The 20 bytes of U1.STATE (R32). -/
def Sha1State.bytes (h : Sha1State) : List Byte :=
  leBytes h.a 4 ++ leBytes h.b 4 ++ leBytes h.c 4 ++ leBytes h.d 4 ++ leBytes h.e 4

/-- `st = [MemRead(0x080 + 4*i, 4) for i in 0..7]` from U2.STATE's 32 bytes (R34, R147). -/
def sha256StateOf (bs : List Byte) : Sha256State :=
  { a := leValue 32 (bs.take 4), b := leValue 32 ((bs.drop 4).take 4), c := leValue 32 ((bs.drop 8).take 4),
    d := leValue 32 ((bs.drop 12).take 4), e := leValue 32 ((bs.drop 16).take 4),
    f := leValue 32 ((bs.drop 20).take 4), g := leValue 32 ((bs.drop 24).take 4),
    h := leValue 32 ((bs.drop 28).take 4) }

/-- The 32 bytes of U2.STATE (R34). -/
def Sha256State.bytes (x : Sha256State) : List Byte :=
  leBytes x.a 4 ++ leBytes x.b 4 ++ leBytes x.c 4 ++ leBytes x.d 4 ++
  leBytes x.e 4 ++ leBytes x.f 4 ++ leBytes x.g 4 ++ leBytes x.h 4

/-- SHA1_COMPRESS as one step, in the pseudocode of R146: the memory it leaves. -/
def sha1CompressMemory (s : State) : Except Fault Memory := do
  let st ← s.loadBytes 0x000 20
  let blk ← s.loadBytes 0x040 64
  return s.mem.store 0x000 (sha1CompressFn (sha1StateOf st) blk).bytes

/-- SHA256_COMPRESS as one step, in the pseudocode of R147: the memory it leaves. -/
def sha256CompressMemory (s : State) : Except Fault Memory := do
  let st ← s.loadBytes 0x080 32
  let blk ← s.loadBytes 0x0C0 64
  return s.mem.store 0x080 (sha256CompressFn (sha256StateOf st) blk).bytes

end Sys2Proof.Machine
end

