-- ==== Sys2Proof/Safety.lean ====
section
/-! DEFINITION. What claims are stated in terms of: the invariants of a state, what a program needs of a state to run, and
the frames: what a micro-operation leaves as it was. -/

namespace Sys2Proof.Machine

/-! ### Invariants -/

/-- Every listed address is in one of the four data regions (R70, R76): no other offset holds a byte. -/
def Memory.inRegions (m : Memory) : Bool := m.all fun c => (region c.1).isData

/-- The invariant of the block: memory in canonical form, bytes only in the data regions, and a unit that is not
executing has `upc` 0 (R43). -/
def State.Inv (s : State) : Prop :=
  s.mem.wf = true ∧ s.mem.inRegions = true ∧ ∀ u, s.running ≠ some u → (s.unit u).upc = 0

/-- The ROMs hold the fixed micro-programs of R220 and R270. -/
def State.FixedRoms (s : State) : Prop := s.rom1 = Rom.u1 ∧ s.rom2 = Rom.u2

/-- An executing unit's `upc` is inside its ROM. -/
def State.UpcInRom (s : State) : Prop := ∀ u, s.running = some u → (s.unit u).upc.toNat < (s.rom u).length

/-! ### The reset signal -/

/-- Reset is not asserted at the next step (R340). -/
def State.NoReset (s : State) : Prop := s.resetLine.head? ≠ some true

/-- `s` after its next reset sample is used up. -/
def State.sampled (s : State) : State := { s with resetLine := s.resetLine.tail }

/-! ### Written bytes and registers (R45) -/

/-- Window byte `a` has been written since reset. -/
def State.ByteWritten (s : State) (a : Nat) : Prop := (s.mem.byte? a).isSome = true

/-- Byte `a` is one of the input bytes of unit `u`'s command: its STATE and BLOCK regions (R146, R147). -/
def IsInput (u : UnitId) (a : Nat) : Prop :=
  (unitBase u ≤ a ∧ a < unitBase u + stateBytes u) ∨ (unitBase u + 0x40 ≤ a ∧ a < unitBase u + 0x80)

/-- All input bytes of unit `u`'s command are written (R343). -/
def State.InputsWritten (s : State) (u : UnitId) : Prop := ∀ a, IsInput u a → s.ByteWritten a

/-- The vector registers an operation reads, in the order of its pseudocode. -/
def vSources : Instr → List Reg
  | .nop | .sha1Compress | .sha256Compress | .endOp | .vld _ _ | .sld _ _ | .sst _ _ | .smov _ _ | .sadd _ _ _
  | .vdupk _ _ | .vldk _ _ | .sha1h _ _ => []
  | .vst _ n | .vmov _ n | .sgetl _ n _ | .vrev32 _ n => [n]
  | .vadd _ n m => [n, m]
  | .sha1c d _ m | .sha1p d _ m | .sha1m d _ m => [d, m]
  | .sha1su1 d n | .sha256su0 d n => [d, n]
  | .sha1su0 d n m | .sha256h d n m | .sha256h2 d n m | .sha256su1 d n m => [d, n, m]

/-- The scalar registers an operation reads. -/
def sSources : Instr → List Reg
  | .sst _ n | .smov _ n | .sha1h _ n => [n]
  | .sadd _ n m => [n, m]
  | .sha1c _ n _ | .sha1p _ n _ | .sha1m _ n _ => [n]
  | .nop | .sha1Compress | .sha256Compress | .endOp | .vld _ _ | .vst _ _ | .sld _ _ | .vmov _ _ | .sgetl _ _ _
  | .vrev32 _ _ | .vadd _ _ _ | .vdupk _ _ | .vldk _ _ | .sha1su0 _ _ _ | .sha1su1 _ _ | .sha256h _ _ _
  | .sha256h2 _ _ _ | .sha256su0 _ _ | .sha256su1 _ _ _ => []

/-- The unit-local offset and size an operation loads from. -/
def loads : Instr → Option (Nat × Nat)
  | .vld _ imm => some (imm.toNat, 16)
  | .sld _ imm => some (imm.toNat, 4)
  | .nop | .sha1Compress | .sha256Compress | .endOp | .vst _ _ | .sst _ _ | .vmov _ _ | .smov _ _ | .sgetl _ _ _
  | .vrev32 _ _ | .vadd _ _ _ | .sadd _ _ _ | .vdupk _ _ | .vldk _ _ | .sha1c _ _ _ | .sha1p _ _ _ | .sha1m _ _ _
  | .sha1h _ _ | .sha1su0 _ _ _ | .sha1su1 _ _ | .sha256h _ _ _ | .sha256h2 _ _ _ | .sha256su0 _ _
  | .sha256su1 _ _ _ => none

/-- Everything a micro-operation reads on unit `u` has been written (R45, R170). -/
def State.SourcesWritten (s : State) (u : UnitId) (i : Instr) : Prop :=
  (∀ r : Reg, r ∈ vSources i → (s.unit u).vWritten[r] = true) ∧
  (∀ r : Reg, r ∈ sSources i → (s.unit u).sWritten[r] = true) ∧
  ∀ o n, loads i = some (o, n) → ∀ k < n, s.ByteWritten (unitBase u + o + k)

/-! ### Frames -/

/-- All of `s` but unit `u` and the window bytes is the same in `t`. -/
def KeepsRest (u : UnitId) (s t : State) : Prop :=
  (∀ w, w ≠ u → t.unit w = s.unit w) ∧ t.cmdErr = s.cmdErr ∧ t.running = s.running ∧ t.rom1 = s.rom1 ∧
  t.rom2 = s.rom2 ∧ t.pending = s.pending ∧ t.responses = s.responses ∧ t.resetLine = s.resetLine

/-- Every byte of memory reads in `t` as in `s`. -/
def KeepsMem (s t : State) : Prop := ∀ a, t.mem.byte? a = s.mem.byte? a

/-- Every byte outside the `n` bytes at `a` reads in `t` as in `s`. -/
def KeepsMemOutside (a n : Nat) (s t : State) : Prop :=
  ∀ b, (b < a ∨ a + n ≤ b) → t.mem.byte? b = s.mem.byte? b

/-- Unit `u`'s V registers, but those in `but`, have the same value and flag in `t`. -/
def KeepsV (u : UnitId) (but : List Reg) (s t : State) : Prop :=
  ∀ r, r ∉ but → (t.unit u).v[r] = (s.unit u).v[r] ∧ (t.unit u).vWritten[r] = (s.unit u).vWritten[r]

/-- Unit `u`'s S registers, but those in `but`, have the same value and flag in `t`. -/
def KeepsS (u : UnitId) (but : List Reg) (s t : State) : Prop :=
  ∀ r, r ∉ but → (t.unit u).s[r] = (s.unit u).s[r] ∧ (t.unit u).sWritten[r] = (s.unit u).sWritten[r]

/-- `t` is `s` after a micro-operation of unit `u` whose one destination is `V[d]`: `V[d]` is written and `upc` is one
more (R45, R171); every other register and flag, every byte of memory, and the rest of the machine are as before. -/
def WritesV (u : UnitId) (d : Reg) (s t : State) : Prop :=
  (t.unit u).vWritten[d] = true ∧ (t.unit u).upc = (s.unit u).upc + 1 ∧
  KeepsV u [d] s t ∧ KeepsS u [] s t ∧ KeepsMem s t ∧ KeepsRest u s t

/-- As `WritesV`, with the one destination `S[d]`. -/
def WritesS (u : UnitId) (d : Reg) (s t : State) : Prop :=
  (t.unit u).sWritten[d] = true ∧ (t.unit u).upc = (s.unit u).upc + 1 ∧
  KeepsV u [] s t ∧ KeepsS u [d] s t ∧ KeepsMem s t ∧ KeepsRest u s t

/-- `t` is `s` after a micro-operation of unit `u` that stores `n` bytes at window offset `a` and writes no register. -/
def Stores (u : UnitId) (a n : Nat) (s t : State) : Prop :=
  (t.unit u).upc = (s.unit u).upc + 1 ∧ KeepsV u [] s t ∧ KeepsS u [] s t ∧ KeepsMemOutside a n s t ∧ KeepsRest u s t

/-! ### What statements name -/

/-- The location has not been written (R45). -/
def Location.Unwritten (s : State) : Location → Prop
  | .window a => s.mem.byte? a = none
  | .vreg u r => (s.unit u).vWritten[r] = false
  | .sreg u r => (s.unit u).sWritten[r] = false

/-- In the ROM of unit `u` the word `w` is the instruction `i`, and no other word is (R111, R115). -/
def IsWord (u : UnitId) (w : Word) (i : Instr) : Prop :=
  decode (.rom u) w = .ok i ∧ ∀ w', decode (.rom u) w' = .ok i → w' = w

/-- The compression command of a unit (R101). -/
def compressCommand : UnitId → Instr
  | .u1 => .sha1Compress
  | .u2 => .sha256Compress

/-- The `n` bytes at `off` all lie in U1S, all in U1B, all in U2S or all in U2B (R70, R76 a), written out as ranges. -/
def BytesInOneRegion (off n : Nat) : Prop :=
  off + n ≤ 0x014 ∨ (0x040 ≤ off ∧ off + n ≤ 0x080) ∨ (0x080 ≤ off ∧ off + n ≤ 0x0A0) ∨
  (0x0C0 ≤ off ∧ off + n ≤ 0x100)

/-- A legal data access (R76 a). -/
def LegalData (off n : Nat) : Prop := (n = 1 ∨ n = 2 ∨ n = 4 ∨ n = 8 ∨ n = 16) ∧ BytesInOneRegion off n

/-- Byte `a` is one of the 64 bytes of U1.BLOCK or of U2.BLOCK (R33, R34). -/
def IsBlock (a : Nat) : Prop := (0x040 ≤ a ∧ a < 0x080) ∨ (0x0C0 ≤ a ∧ a < 0x100)

/-- Byte `a` is one of unit `u`'s 0x80 bytes (R75). -/
def InUnit (u : UnitId) (a : Nat) : Prop := unitBase u ≤ a ∧ a < unitBase u + 0x80

/-- A legal command word: RSVD = 0 and OP one of 0, 1, 2 (R102). -/
def LegalCommandWord (w : Word) : Prop :=
  w.extractLsb' 4 28 = 0 ∧ (w.extractLsb' 0 4 = 0 ∨ w.extractLsb' 0 4 = 1 ∨ w.extractLsb' 0 4 = 2)

/-- The port is free, reset is not asserted, and `a` is the oldest pending access. -/
def State.Serves (s : State) (a : Transaction) (rest : List Transaction) : Prop :=
  s.NoReset ∧ s.running = none ∧ s.pending = a :: rest

/-- `s` after the port has answered its oldest access with `r` and changed nothing else. -/
def State.answered (s : State) (rest : List Transaction) (r : Response) : State :=
  { s.sampled with pending := rest, responses := r :: s.responses }

/-- What one unit can see: the two states have the same unit `u`, the same ROM of it, the same bytes of its window part,
and both execute it (R47, R151). -/
def SameForUnit (u : UnitId) (s t : State) : Prop :=
  s.running = t.running ∧ s.unit u = t.unit u ∧ s.rom u = t.rom u ∧ ∀ a, InUnit u a → s.mem.byte? a = t.mem.byte? a

/-- The SHA-1 working variables held as abcd in a vector and e in a scalar (R209). -/
def sha1Vars (x : Vec) (e : Word) : Sha1State := { a := x.l0, b := x.l1, c := x.l2, d := x.l3, e := e }

/-- The SHA-256 working variables held as abcd and efgh (R259). -/
def sha256Vars (x y : Vec) : Sha256State :=
  { a := x.l0, b := x.l1, c := x.l2, d := x.l3, e := y.l0, f := y.l1, g := y.l2, h := y.l3 }

/-- Four scalar rounds of R204 with the mixing function `f` and the sums in the lanes of `w`. -/
def sha1FourRounds (f : Word → Word → Word → Word) (w : Vec) (x : Sha1State) : Sha1State :=
  sha1Round f w.l3 (sha1Round f w.l2 (sha1Round f w.l1 (sha1Round f w.l0 x)))

/-- Four scalar rounds of R254 with the sums in the lanes of `w`. -/
def sha256FourRounds (w : Vec) (x : Sha256State) : Sha256State :=
  sha256Round w.l3 (sha256Round w.l2 (sha256Round w.l1 (sha256Round w.l0 x)))

/-- What SHA1C, SHA1P and SHA1M do on U1 (R209 to R212): with its sources written, the operation `op`, of UOP `uop`, leaves in `V[d]`
the a, b, c, d of four rounds of R204 with `f`, from `V[d]`, `S[n]` and the sums in `V[m]`, and writes nothing else. -/
def RunsFourSha1Rounds (f : Word → Word → Word → Word) (uop : BitVec 8) (op : Reg → Reg → Reg → Instr) : Prop :=
  ∀ (d n m : Reg) (s : State), s.running = some .u1 → s.u1.vWritten[d] = true → s.u1.sWritten[n] = true →
    s.u1.vWritten[m] = true →
    IsWord .u1 (pack uop d n m 0) (op d n m) ∧
    ∃ t, exec (op d n m) s = .next t ∧ WritesV .u1 d s t ∧
      let r := sha1FourRounds f s.u1.v[m] (sha1Vars s.u1.v[d] s.u1.s[n])
      t.u1.v[d] = ⟨r.a, r.b, r.c, r.d⟩

end Sys2Proof.Machine
end

