-- ==== Sys2Proof/Certificates/Slice0/Obligations.lean ====
section
/-! DEFINITION. The statements for the provers. Each docstring names the rule of spec/ it formalises. -/

open Sys2Proof Sys2Proof.Machine

/-! ### Encoding -/

/-- Every instruction that may stand in a slot is what the decoder reads there from its word (R101, R110, R111, R114,
R115): all commands, all micro-operations of either unit, every operand value. -/
def Obligations.DecodeUndoesEncode : Prop :=
  ∀ (slot : Slot) (i : Instr), i.wellFormed slot = true → decode slot (encode i) = .ok i

/-- Every word has at most one meaning in a slot: a word that decodes is the word of the instruction it decodes to, and
that instruction may stand there (R111, R115, R116). -/
def Obligations.DecodedWordIsTheEncoding : Prop :=
  ∀ (slot : Slot) (w : Word) (i : Instr), decode slot w = .ok i → i.wellFormed slot = true ∧ encode i = w

/-- Words of 95_test_vectors.md section 2.8, decoded in each unit (R110 to R117). -/
def Obligations.ListedWordsDecode : Prop :=
  decode (.rom .u1) 0x10002000 = .ok (.sha1c 0 0 2) ∧ decode (.rom .u2) 0x10002000 = .error .otherUnit ∧
  decode (.rom .u1) 0x01400040 = .ok (.vld 4 0x40) ∧ decode (.rom .u1) 0x01000010 = .error .offsetOutsideRegion ∧
  decode (.rom .u2) 0x01000010 = .ok (.vld 0 0x10) ∧ decode (.rom .u2) 0x21398000 = .ok (.sha256h2 3 9 8) ∧
  decode (.rom .u2) 0x0C80000F = .ok (.vldk 8 15) ∧ decode (.rom .u1) 0x07200003 = .ok (.sgetl 2 0 3) ∧
  decode (.rom .u1) 0x0D000000 = .error .unknownUop ∧ decode .cmd 0x00000001 = .ok .sha1Compress ∧
  decode .cmd 0x80000001 = .error .illegalCommand

/-- The command words (R101, R102): 0, 1 and 2 are the three commands, and a word is a command exactly when RSVD is 0 and
OP is 0, 1 or 2. -/
def Obligations.CommandWordsAreTheThree : Prop :=
  ∀ w : Word,
    (decode .cmd w = .ok .nop ↔ w = 0x00000000) ∧ (decode .cmd w = .ok .sha1Compress ↔ w = 0x00000001) ∧
    (decode .cmd w = .ok .sha256Compress ↔ w = 0x00000002) ∧
    ((∃ i, decode .cmd w = .ok i) ↔ LegalCommandWord w)

/-- The offsets a load or store word may hold, unit by unit, as R116 lists them; with any other offset the word is
reserved. -/
def Obligations.LegalOffsetsOfLoadsAndStores : Prop :=
  ∀ (r : Reg) (imm : BitVec 12),
    (decode (.rom .u1) (pack 0x01 r 0 0 imm) = .ok (.vld r imm) ↔
      imm.toNat ≤ 0x04 ∨ (0x40 ≤ imm.toNat ∧ imm.toNat ≤ 0x70)) ∧
    (decode (.rom .u1) (pack 0x02 0 r 0 imm) = .ok (.vst imm r) ↔
      imm.toNat ≤ 0x04 ∨ (0x40 ≤ imm.toNat ∧ imm.toNat ≤ 0x70)) ∧
    (decode (.rom .u2) (pack 0x01 r 0 0 imm) = .ok (.vld r imm) ↔
      imm.toNat ≤ 0x10 ∨ (0x40 ≤ imm.toNat ∧ imm.toNat ≤ 0x70)) ∧
    (decode (.rom .u2) (pack 0x02 0 r 0 imm) = .ok (.vst imm r) ↔
      imm.toNat ≤ 0x10 ∨ (0x40 ≤ imm.toNat ∧ imm.toNat ≤ 0x70)) ∧
    (decode (.rom .u1) (pack 0x03 r 0 0 imm) = .ok (.sld r imm) ↔
      imm.toNat ≤ 0x10 ∨ (0x40 ≤ imm.toNat ∧ imm.toNat ≤ 0x7C)) ∧
    (decode (.rom .u1) (pack 0x04 0 r 0 imm) = .ok (.sst imm r) ↔
      imm.toNat ≤ 0x10 ∨ (0x40 ≤ imm.toNat ∧ imm.toNat ≤ 0x7C)) ∧
    (decode (.rom .u2) (pack 0x03 r 0 0 imm) = .ok (.sld r imm) ↔
      imm.toNat ≤ 0x1C ∨ (0x40 ≤ imm.toNat ∧ imm.toNat ≤ 0x7C)) ∧
    (decode (.rom .u2) (pack 0x04 0 r 0 imm) = .ok (.sst imm r) ↔
      imm.toNat ≤ 0x1C ∨ (0x40 ≤ imm.toNat ∧ imm.toNat ≤ 0x7C))

/-! ### A step runs the decoded instruction -/

/-- While a unit executes, a step runs the instruction its ROM holds at `upc` (R80, R145, R171). -/
def Obligations.StepRunsTheFetchedMicroOp : Prop :=
  ∀ (s : State) (u : UnitId) (w : Word) (i : Instr), s.NoReset → s.running = some u →
    (s.rom u)[(s.unit u).upc.toNat]? = some w → decode (.rom u) w = .ok i → step s = exec i s.sampled

/-- With the port free, a 4-byte write of a legal word to CMD is a step that runs that command, the write taken off the
pending accesses (R100, R145). -/
def Obligations.StepRunsTheWrittenCommand : Prop :=
  ∀ (s : State) (off : BitVec 9) (data : BitVec 128) (rest : List Transaction) (i : Instr),
    s.Serves (.write off 4 data) rest → off.toNat = 0x100 → decode .cmd (data.setWidth 32) = .ok i →
    step s = exec i { s.sampled with pending := rest }

/-- A reserved micro-instruction word is refused with its ROM index (R116, R301). -/
def Obligations.ReservedWordIsRefused : Prop :=
  ∀ (s : State) (u : UnitId) (w : Word) (e : DecodeError), s.NoReset → s.running = some u →
    (s.rom u)[(s.unit u).upc.toNat]? = some w → decode (.rom u) w = .error e →
    step s = .refused (.reserved u (s.unit u).upc)

/-! ### Commands -/

/-- NOP, command word 0, changes no state of the block, CMD_ERR included, and completes at once with OKAY (R148). -/
def Obligations.NopChangesNothing : Prop :=
  decode .cmd 0x00000000 = .ok .nop ∧
  ∀ s : State, exec .nop s = .next { s with responses := .okay :: s.responses }

/-- SHA1_COMPRESS and SHA256_COMPRESS, with all input bytes written, start their unit: the command is in progress on it,
its `upc` is 0 and none of its registers holds a value (R44, R145, R171); nothing else changes and no response is given
yet. -/
def Obligations.CompressCommandStartsItsUnit : Prop :=
  ∀ (u : UnitId) (s : State), s.InputsWritten u →
    ∃ t, exec (compressCommand u) s = .next t ∧ t.running = some u ∧ (t.unit u).upc = 0 ∧
      (∀ r : Reg, (t.unit u).vWritten[r] = false ∧ (t.unit u).sWritten[r] = false) ∧
      t.mem = s.mem ∧ KeepsRest u { s with running := some u } t

/-- A compression command with an unwritten input byte faults Uninit with the lowest such offset, before anything is
written (R146, R147, R305). -/
def Obligations.CompressCommandFaultsAtTheLowestUnwrittenByte : Prop :=
  ∀ (u : UnitId) (s : State) (a : Nat), IsInput u a → s.mem.byte? a = none →
    (∀ b, IsInput u b → b < a → s.ByteWritten b) →
    exec (compressCommand u) s = .fault (.uninit (.window a))

/-- END sets `upc` to 0 and completes the command: the held write gets OKAY, the port is free (R145, R182).
The clauses `KeepsV u [] s t` and `KeepsS u [] s t` (every register and written flag of the unit as before) are the
model's choice, notes/assumptions/3.md: the spec leaves them open (R44: "The hardware may keep the bits";
93_implementation_defined.md U4: "A model may drop them between commands"). -/
def Obligations.EndCompletesTheCommand : Prop :=
  ∀ (u : UnitId) (s : State), s.running = some u →
    ∃ t, exec .endOp s = .next t ∧ (t.unit u).upc = 0 ∧ t.running = none ∧ t.responses = .okay :: s.responses ∧
      KeepsV u [] s t ∧ KeepsS u [] s t ∧ t.mem = s.mem ∧
      KeepsRest u { s with running := none, responses := .okay :: s.responses } t

/-! ### Loads and stores -/

/-- VLD (R172): lane i is the little-endian word of bytes 4i to 4i+3; Uninit if any of the 16 bytes is unwritten. -/
def Obligations.VldLoadsLittleEndianLanes : Prop :=
  ∀ (u : UnitId) (d : Reg) (imm : BitVec 12) (s : State), s.running = some u →
    (Instr.vld d imm).wellFormed (.rom u) = true →
    IsWord u (pack 0x01 d 0 0 imm) (.vld d imm) ∧
    (∀ b : Nat → Byte, (∀ k, k < 16 → s.mem.byte? (unitBase u + imm.toNat + k) = some (b k)) →
      ∃ t, exec (.vld d imm) s = .next t ∧ WritesV u d s t ∧
        ∀ i : Fin 4, lane (t.unit u).v[d] i =
          b (4 * i.val + 3) ++ b (4 * i.val + 2) ++ b (4 * i.val + 1) ++ b (4 * i.val)) ∧
    ∀ k, k < 16 → s.mem.byte? (unitBase u + imm.toNat + k) = none →
      ∃ a, exec (.vld d imm) s = .fault (.uninit (.window a)) ∧ s.mem.byte? a = none

/-- VST (R173): byte j of lane i goes to offset 4i+j; the 16 bytes are stored and no others. -/
def Obligations.VstStoresLittleEndianLanes : Prop :=
  ∀ (u : UnitId) (imm : BitVec 12) (n : Reg) (s : State), s.running = some u →
    (Instr.vst imm n).wellFormed (.rom u) = true → (s.unit u).vWritten[n] = true →
    IsWord u (pack 0x02 0 n 0 imm) (.vst imm n) ∧
    ∃ t, exec (.vst imm n) s = .next t ∧ Stores u (unitBase u + imm.toNat) 16 s t ∧
      ∀ i j : Fin 4, t.mem.byte? (unitBase u + imm.toNat + (4 * i.val + j.val)) =
        some ((lane (s.unit u).v[n] i).extractLsb' (8 * j.val) 8)

/-- SLD (R174): one little-endian word; Uninit if any of the 4 bytes is unwritten. -/
def Obligations.SldLoadsALittleEndianWord : Prop :=
  ∀ (u : UnitId) (d : Reg) (imm : BitVec 12) (s : State), s.running = some u →
    (Instr.sld d imm).wellFormed (.rom u) = true →
    IsWord u (pack 0x03 d 0 0 imm) (.sld d imm) ∧
    (∀ b : Nat → Byte, (∀ k, k < 4 → s.mem.byte? (unitBase u + imm.toNat + k) = some (b k)) →
      ∃ t, exec (.sld d imm) s = .next t ∧ WritesS u d s t ∧ (t.unit u).s[d] = b 3 ++ b 2 ++ b 1 ++ b 0) ∧
    ∀ k, k < 4 → s.mem.byte? (unitBase u + imm.toNat + k) = none →
      ∃ a, exec (.sld d imm) s = .fault (.uninit (.window a)) ∧ s.mem.byte? a = none

/-- SST (R175): the 4 bytes of the word are stored, least significant lowest, and no others. -/
def Obligations.SstStoresALittleEndianWord : Prop :=
  ∀ (u : UnitId) (imm : BitVec 12) (n : Reg) (s : State), s.running = some u →
    (Instr.sst imm n).wellFormed (.rom u) = true → (s.unit u).sWritten[n] = true →
    IsWord u (pack 0x04 0 n 0 imm) (.sst imm n) ∧
    ∃ t, exec (.sst imm n) s = .next t ∧ Stores u (unitBase u + imm.toNat) 4 s t ∧
      ∀ j : Fin 4, t.mem.byte? (unitBase u + imm.toNat + j.val) =
        some ((s.unit u).s[n].extractLsb' (8 * j.val) 8)

/-! ### Moves -/

/-- VMOV (R176). -/
def Obligations.VmovCopiesTheVector : Prop :=
  ∀ (u : UnitId) (d n : Reg) (s : State), s.running = some u → (s.unit u).vWritten[n] = true →
    IsWord u (pack 0x05 d n 0 0) (.vmov d n) ∧
    ∃ t, exec (.vmov d n) s = .next t ∧ WritesV u d s t ∧ (t.unit u).v[d] = (s.unit u).v[n]

/-- SMOV (R177). -/
def Obligations.SmovCopiesTheScalar : Prop :=
  ∀ (u : UnitId) (d n : Reg) (s : State), s.running = some u → (s.unit u).sWritten[n] = true →
    IsWord u (pack 0x06 d n 0 0) (.smov d n) ∧
    ∃ t, exec (.smov d n) s = .next t ∧ WritesS u d s t ∧ (t.unit u).s[d] = (s.unit u).s[n]

/-- VREV32 (R178): each lane's four bytes in the opposite order. -/
def Obligations.Vrev32SwapsTheBytesOfEachLane : Prop :=
  ∀ (u : UnitId) (d n : Reg) (s : State), s.running = some u → (s.unit u).vWritten[n] = true →
    IsWord u (pack 0x08 d n 0 0) (.vrev32 d n) ∧
    ∃ t, exec (.vrev32 d n) s = .next t ∧ WritesV u d s t ∧
      ∀ (i : Fin 4) (b0 b1 b2 b3 : Byte), lane (s.unit u).v[n] i = b3 ++ b2 ++ b1 ++ b0 →
        lane (t.unit u).v[d] i = b0 ++ b1 ++ b2 ++ b3

/-- SGETL (R179). -/
def Obligations.SgetlExtractsTheLane : Prop :=
  ∀ (u : UnitId) (d n : Reg) (i : Fin 4) (s : State), s.running = some u → (s.unit u).vWritten[n] = true →
    IsWord u (pack 0x07 d n 0 (BitVec.ofNat 12 i.val)) (.sgetl d n i) ∧
    ∃ t, exec (.sgetl d n i) s = .next t ∧ WritesS u d s t ∧ (t.unit u).s[d] = lane (s.unit u).v[n] i

/-! ### Addition and constants -/

/-- VADD (R180): each lane is the sum of the two lanes modulo 2^32; no carry enters another lane. -/
def Obligations.VaddAddsEachLaneModulo : Prop :=
  ∀ (u : UnitId) (d n m : Reg) (s : State), s.running = some u → (s.unit u).vWritten[n] = true →
    (s.unit u).vWritten[m] = true →
    IsWord u (pack 0x09 d n m 0) (.vadd d n m) ∧
    ∃ t, exec (.vadd d n m) s = .next t ∧ WritesV u d s t ∧
      ∀ i : Fin 4, (lane (t.unit u).v[d] i).toNat =
        ((lane (s.unit u).v[n] i).toNat + (lane (s.unit u).v[m] i).toNat) % 2 ^ 32

/-- SADD (R181): the sum modulo 2^32. -/
def Obligations.SaddAddsModulo : Prop :=
  ∀ (u : UnitId) (d n m : Reg) (s : State), s.running = some u → (s.unit u).sWritten[n] = true →
    (s.unit u).sWritten[m] = true →
    IsWord u (pack 0x0A d n m 0) (.sadd d n m) ∧
    ∃ t, exec (.sadd d n m) s = .next t ∧ WritesS u d s t ∧
      (t.unit u).s[d].toNat = ((s.unit u).s[n].toNat + (s.unit u).s[m].toNat) % 2 ^ 32

/-- VDUPK (R183, R203): K1[k] in every lane, K1 the four constants written out. -/
def Obligations.VdupkBroadcastsTheConstant : Prop :=
  ∀ (d : Reg) (k : Fin 4) (s : State), s.running = some .u1 →
    IsWord .u1 (pack 0x0B d 0 0 (BitVec.ofNat 12 k.val)) (.vdupk d k) ∧
    ∃ t, exec (.vdupk d k) s = .next t ∧ WritesV .u1 d s t ∧
      ∀ i : Fin 4, some (lane t.u1.v[d] i) =
        ([0x5A827999, 0x6ED9EBA1, 0x8F1BBCDC, 0xCA62C1D6] : List Word)[k.val]?

/-- VLDK (R184): lane i is K256[4g + i]. -/
def Obligations.VldkLoadsFourConstants : Prop :=
  ∀ (d : Reg) (g : Fin 16) (s : State), s.running = some .u2 →
    IsWord .u2 (pack 0x0C d 0 0 (BitVec.ofNat 12 g.val)) (.vldk d g) ∧
    ∃ t, exec (.vldk d g) s = .next t ∧ WritesV .u2 d s t ∧
      ∀ i : Fin 4, lane t.u2.v[d] i = k256 (4 * g.val + i.val)

/-! ### SHA-1 micro-operations -/

/-- SHA1C, SHA1P and SHA1M (R209 to R212) are four scalar rounds of R204 with choice, parity and majority. -/
def Obligations.Sha1RoundOpsAreFourRounds : Prop :=
  RunsFourSha1Rounds choice 0x10 .sha1c ∧ RunsFourSha1Rounds parity 0x11 .sha1p ∧
  RunsFourSha1Rounds majority 0x12 .sha1m

/-- SHA1H (R213): ROL by 30, that is ROR by 2: bit i of the result is bit (i + 2) mod 32 of the source. -/
def Obligations.Sha1hRotatesLeftByThirty : Prop :=
  ∀ (d n : Reg) (s : State), s.running = some .u1 → s.u1.sWritten[n] = true →
    IsWord .u1 (pack 0x13 d n 0 0) (.sha1h d n) ∧
    ∃ t, exec (.sha1h d n) s = .next t ∧ WritesS .u1 d s t ∧
      ∀ i, i < 32 → t.u1.s[d].getLsbD i = s.u1.s[n].getLsbD ((i + 2) % 32)

/-- SHA1SU0 (R214), lane by lane as its pseudocode. -/
def Obligations.Sha1su0XorsThreeWords : Prop :=
  ∀ (d n m : Reg) (s : State), s.running = some .u1 → s.u1.vWritten[d] = true → s.u1.vWritten[n] = true →
    s.u1.vWritten[m] = true →
    IsWord .u1 (pack 0x14 d n m 0) (.sha1su0 d n m) ∧
    ∃ t, exec (.sha1su0 d n m) s = .next t ∧ WritesV .u1 d s t ∧
      lane t.u1.v[d] 0 = lane s.u1.v[d] 2 ^^^ lane s.u1.v[d] 0 ^^^ lane s.u1.v[m] 0 ∧
      lane t.u1.v[d] 1 = lane s.u1.v[d] 3 ^^^ lane s.u1.v[d] 1 ^^^ lane s.u1.v[m] 1 ∧
      lane t.u1.v[d] 2 = lane s.u1.v[n] 0 ^^^ lane s.u1.v[d] 2 ^^^ lane s.u1.v[m] 2 ∧
      lane t.u1.v[d] 3 = lane s.u1.v[n] 1 ^^^ lane s.u1.v[d] 3 ^^^ lane s.u1.v[m] 3

/-- SHA1SU1 (R215), lane by lane as its pseudocode. -/
def Obligations.Sha1su1FinishesTheSchedule : Prop :=
  ∀ (d n : Reg) (s : State), s.running = some .u1 → s.u1.vWritten[d] = true → s.u1.vWritten[n] = true →
    IsWord .u1 (pack 0x15 d n 0 0) (.sha1su1 d n) ∧
    ∃ t, exec (.sha1su1 d n) s = .next t ∧ WritesV .u1 d s t ∧
      lane t.u1.v[d] 0 = rol (lane s.u1.v[d] 0 ^^^ lane s.u1.v[n] 1) 1 ∧
      lane t.u1.v[d] 1 = rol (lane s.u1.v[d] 1 ^^^ lane s.u1.v[n] 2) 1 ∧
      lane t.u1.v[d] 2 = rol (lane s.u1.v[d] 2 ^^^ lane s.u1.v[n] 3) 1 ∧
      lane t.u1.v[d] 3 = rol (lane s.u1.v[d] 3) 1 ^^^ rol (lane s.u1.v[d] 0 ^^^ lane s.u1.v[n] 1) 2

/-! ### SHA-256 micro-operations -/

/-- SHA256H (R259, R260): the new a, b, c, d of four rounds of R254 from abcd in V[d] and efgh in V[n]. -/
def Obligations.Sha256hIsTheAbcdHalf : Prop :=
  ∀ (d n m : Reg) (s : State), s.running = some .u2 → s.u2.vWritten[d] = true → s.u2.vWritten[n] = true →
    s.u2.vWritten[m] = true →
    IsWord .u2 (pack 0x20 d n m 0) (.sha256h d n m) ∧
    ∃ t, exec (.sha256h d n m) s = .next t ∧ WritesV .u2 d s t ∧
      let r := sha256FourRounds s.u2.v[m] (sha256Vars s.u2.v[d] s.u2.v[n])
      t.u2.v[d] = ⟨r.a, r.b, r.c, r.d⟩

/-- SHA256H2 (R259, R261): the new e, f, g, h of four rounds of R254 from abcd in V[n] and efgh in V[d]. -/
def Obligations.Sha256h2IsTheEfghHalf : Prop :=
  ∀ (d n m : Reg) (s : State), s.running = some .u2 → s.u2.vWritten[d] = true → s.u2.vWritten[n] = true →
    s.u2.vWritten[m] = true →
    IsWord .u2 (pack 0x21 d n m 0) (.sha256h2 d n m) ∧
    ∃ t, exec (.sha256h2 d n m) s = .next t ∧ WritesV .u2 d s t ∧
      let r := sha256FourRounds s.u2.v[m] (sha256Vars s.u2.v[n] s.u2.v[d])
      t.u2.v[d] = ⟨r.e, r.f, r.g, r.h⟩

/-- SHA256SU0 (R262), lane by lane as its pseudocode. -/
def Obligations.Sha256su0AddsSigmaZero : Prop :=
  ∀ (d n : Reg) (s : State), s.running = some .u2 → s.u2.vWritten[d] = true → s.u2.vWritten[n] = true →
    IsWord .u2 (pack 0x22 d n 0 0) (.sha256su0 d n) ∧
    ∃ t, exec (.sha256su0 d n) s = .next t ∧ WritesV .u2 d s t ∧
      lane t.u2.v[d] 0 = smallSigma0 (lane s.u2.v[d] 1) + lane s.u2.v[d] 0 ∧
      lane t.u2.v[d] 1 = smallSigma0 (lane s.u2.v[d] 2) + lane s.u2.v[d] 1 ∧
      lane t.u2.v[d] 2 = smallSigma0 (lane s.u2.v[d] 3) + lane s.u2.v[d] 2 ∧
      lane t.u2.v[d] 3 = smallSigma0 (lane s.u2.v[n] 0) + lane s.u2.v[d] 3

/-- SHA256SU1 (R263), lane by lane as its pseudocode; lanes 2 and 3 use lanes 0 and 1 of this same result. -/
def Obligations.Sha256su1FinishesTheSchedule : Prop :=
  ∀ (d n m : Reg) (s : State), s.running = some .u2 → s.u2.vWritten[d] = true → s.u2.vWritten[n] = true →
    s.u2.vWritten[m] = true →
    IsWord .u2 (pack 0x23 d n m 0) (.sha256su1 d n m) ∧
    ∃ t, exec (.sha256su1 d n m) s = .next t ∧ WritesV .u2 d s t ∧
      lane t.u2.v[d] 0 = smallSigma1 (lane s.u2.v[m] 2) + lane s.u2.v[d] 0 + lane s.u2.v[n] 1 ∧
      lane t.u2.v[d] 1 = smallSigma1 (lane s.u2.v[m] 3) + lane s.u2.v[d] 1 + lane s.u2.v[n] 2 ∧
      lane t.u2.v[d] 2 = smallSigma1 (lane t.u2.v[d] 0) + lane s.u2.v[d] 2 + lane s.u2.v[n] 3 ∧
      lane t.u2.v[d] 3 = smallSigma1 (lane t.u2.v[d] 1) + lane s.u2.v[d] 3 + lane s.u2.v[m] 0

/-! ### Uninit -/

/-- A micro-operation on its unit goes on exactly when everything it reads has been written; otherwise it faults Uninit
at a location that has not (R45, R170, R301). -/
def Obligations.MicroOpRunsExactlyWhenItsSourcesAreWritten : Prop :=
  ∀ (s : State) (u : UnitId) (i : Instr), s.running = some u → i.wellFormed (.rom u) = true →
    (s.SourcesWritten u i → ∃ t, exec i s = .next t) ∧
    (¬ s.SourcesWritten u i → ∃ l, exec i s = .fault (.uninit l) ∧ l.Unwritten s)

/-! ### Host accesses -/

/-- A legal data read of written bytes answers OKAY with them, least significant byte lowest, and changes nothing else
(R72, R76, R79, R140). -/
def Obligations.HostReadReturnsTheBytes : Prop :=
  ∀ (s : State) (off : BitVec 9) (n : Nat) (rest : List Transaction) (b : Nat → Byte),
    s.Serves (.read off n) rest → LegalData off.toNat n →
    (∀ k, k < n → s.mem.byte? (off.toNat + k) = some (b k)) →
    ∃ v : BitVec 128, step s = .next (s.answered rest (.okayData n v)) ∧ v.toNat < 2 ^ (8 * n) ∧
      ∀ k, k < n → v.extractLsb' (8 * k) 8 = b k

/-- A legal data read of an unwritten byte faults Uninit with the lowest such offset (R45, R140, R305). -/
def Obligations.HostReadFaultsAtTheLowestUnwrittenByte : Prop :=
  ∀ (s : State) (off : BitVec 9) (n : Nat) (rest : List Transaction) (k : Nat),
    s.Serves (.read off n) rest → LegalData off.toNat n → k < n → s.mem.byte? (off.toNat + k) = none →
    (∀ j, j < k → s.ByteWritten (off.toNat + j)) →
    step s = .fault (.uninit (.window (off.toNat + k)))

/-- A legal data write stores its bytes, least significant lowest, and no others, answers OKAY and changes nothing else
(R72, R76, R141). -/
def Obligations.HostWriteStoresTheBytes : Prop :=
  ∀ (s : State) (off : BitVec 9) (n : Nat) (data : BitVec 128) (rest : List Transaction),
    s.Serves (.write off n data) rest → LegalData off.toNat n →
    ∃ m : Memory, step s = .next { s.answered rest .okay with mem := m } ∧
      (∀ k, k < n → m.byte? (off.toNat + k) = some (data.extractLsb' (8 * k) 8)) ∧
      ∀ a, (a < off.toNat ∨ off.toNat + n ≤ a) → m.byte? a = s.mem.byte? a

/-- A read sees the last write, whatever the widths: after a write of `n` bytes, a read of `m` bytes inside them gives
that part of the value (R74, R84). -/
def Obligations.ReadAfterWriteGivesThatPart : Prop :=
  ∀ (s : State) (off off' : BitVec 9) (n m j : Nat) (data : BitVec 128) (rest : List Transaction),
    s.resetLine = [] → s.running = none → s.pending = .write off n data :: .read off' m :: rest →
    LegalData off.toNat n → LegalData off'.toNat m → off'.toNat = off.toNat + j → j + m ≤ n →
    ∃ t v, Host.Core.run core 2 s = .next t ∧ t.responses = .okayData m v :: .okay :: s.responses ∧
      v.toNat = (data >>> (8 * j)).toNat % 2 ^ (8 * m)

/-- Every access that is no legal data access and no 4-byte access at 0x100, 0x104 or 0x108, and every write to CAPS,
gets BUSERR and changes no state (R76, R142, R305). -/
def Obligations.BusErrorChangesNothing : Prop :=
  ∀ (s : State) (off : BitVec 9) (n : Nat) (data : BitVec 128) (rest : List Transaction),
    ¬ LegalData off.toNat n →
    (s.Serves (.read off n) rest →
      ¬ (n = 4 ∧ (off.toNat = 0x100 ∨ off.toNat = 0x104 ∨ off.toNat = 0x108)) →
      step s = .next (s.answered rest .busErr)) ∧
    (s.Serves (.write off n data) rest → ¬ (n = 4 ∧ (off.toNat = 0x100 ∨ off.toNat = 0x104)) →
      step s = .next (s.answered rest .busErr))

/-- Control register reads (R143): CMD reads 0, STATUS its one flag zero-extended, CAPS 3; nothing else changes. -/
def Obligations.ControlRegisterReads : Prop :=
  ∀ (s : State) (rest : List Transaction),
    (s.Serves (.read 0x100 4) rest → step s = .next (s.answered rest (.okayData 4 0))) ∧
    (s.Serves (.read 0x104 4) rest →
      step s = .next (s.answered rest (.okayData 4 (if s.cmdErr = true then 1 else 0)))) ∧
    (s.Serves (.read 0x108 4) rest → step s = .next (s.answered rest (.okayData 4 3)))

/-- A STATUS write clears CMD_ERR when data bit 0 is 1; its other bits are ignored, and nothing else changes (R144). -/
def Obligations.StatusWriteClearsOnOne : Prop :=
  ∀ (s : State) (data : BitVec 128) (rest : List Transaction), s.Serves (.write 0x104 4 data) rest →
    (data.getLsbD 0 = true → step s = .next { s.answered rest .okay with cmdErr := false }) ∧
    (data.getLsbD 0 = false → step s = .next (s.answered rest .okay))

/-- An illegal command word, one with RSVD not 0 or OP not 0, 1 or 2, sets CMD_ERR, gets OKAY, starts nothing and changes
nothing else (R102, R145, R149). -/
def Obligations.IllegalCommandSetsCmdErrAndNothingElse : Prop :=
  ∀ (s : State) (data : BitVec 128) (rest : List Transaction), s.Serves (.write 0x100 4 data) rest →
    ¬ LegalCommandWord (data.setWidth 32) → step s = .next { s.answered rest .okay with cmdErr := true }

/-! ### Whole machine -/

/-- Reset (R340, R341, R48): at any state, inside a command too, an asserted reset leaves no data byte and no register
written, CMD_ERR 0, both units idle with upc 0; a held CMD write gets no response. That the ROMs, the pending accesses and
the earlier responses stay is the model's choice (notes/assumptions/5.md). -/
def Obligations.ResetLeavesTheResetState : Prop :=
  ∀ (s : State) (line : List Bool), s.resetLine = true :: line →
    ∃ t, step s = .next t ∧ (∀ a, t.mem.byte? a = none) ∧ t.cmdErr = false ∧ t.running = none ∧
      (∀ u, (t.unit u).upc = 0 ∧
        ∀ r : Reg, (t.unit u).vWritten[r] = false ∧ (t.unit u).sWritten[r] = false) ∧
      t.responses = s.responses ∧ t.pending = s.pending ∧ t.rom1 = s.rom1 ∧ t.rom2 = s.rom2 ∧ t.resetLine = line

/-- The invariant of the block holds after reset. -/
def Obligations.InvariantHoldsAtReset : Prop := State.reset.Inv ∧ State.reset.FixedRoms ∧ State.reset.UpcInRom

/-- Every step keeps the invariant: memory in canonical form, bytes in the four data regions only (R70), and a unit that
does not execute has `upc` 0 (R43). -/
def Obligations.EveryStepKeepsTheInvariant : Prop :=
  ∀ s t : State, s.Inv → step s = .next t → t.Inv

/-- No step changes a unit's ROM (R31, R89). -/
def Obligations.NoStepWritesARom : Prop :=
  ∀ s t : State, step s = .next t → t.rom1 = s.rom1 ∧ t.rom2 = s.rom2

/-- With the fixed ROMs, every step keeps an executing unit's `upc` inside its program (R43, R171, R220, R270). -/
def Obligations.UpcStaysInsideTheFixedRoms : Prop :=
  ∀ s t : State, s.FixedRoms → s.UpcInRom → step s = .next t → t.FixedRoms ∧ t.UpcInRom

/-- With the fixed ROMs, no step is refused: the block never meets a reserved word (R116, R301). -/
def Obligations.FixedRomsAreNeverRefused : Prop :=
  ∀ (s : State) (r : Refusal), s.FixedRoms → s.UpcInRom → step s ≠ .refused r

/-- Only a host write to it changes a byte of a BLOCK: no command does (R39). -/
def Obligations.OnlyHostWritesChangeABlock : Prop :=
  ∀ (s t : State) (a : Nat), s.FixedRoms → s.NoReset → step s = .next t → IsBlock a →
    t.mem.byte? a ≠ s.mem.byte? a →
    s.running = none ∧ ∃ off n data rest, s.pending = .write off n data :: rest ∧
      off.toNat ≤ a ∧ a < off.toNat + n

/-- The units share no state: a step of one unit leaves the other's registers, `upc` and window bytes, and CMD_ERR, as
they were (R47, R75). -/
def Obligations.AUnitLeavesTheOtherAlone : Prop :=
  ∀ (s t : State) (u w : UnitId), s.NoReset → s.running = some u → w ≠ u → step s = .next t →
    t.unit w = s.unit w ∧ (∀ a, InUnit w a → t.mem.byte? a = s.mem.byte? a) ∧ t.cmdErr = s.cmdErr

/-- A unit learns nothing of the rest of the machine: two states that are the same to it, whatever the other unit,
CMD_ERR, the pending accesses and the responses are, go on to states that are the same to it (R47, R151). -/
def Obligations.AUnitSeesOnlyItsOwnState : Prop :=
  ∀ (s s' t : State) (u : UnitId), s.NoReset → s'.NoReset → s.running = some u → SameForUnit u s s' →
    step s = .next t → ∃ t', step s' = .next t' ∧ SameForUnit u t t'

/-- CMD_ERR changes only by an illegal command word, which sets it, or by a STATUS write with bit 0 set, which clears it
(R37, R47). -/
def Obligations.OnlyTwoWritesChangeCmdErr : Prop :=
  ∀ s t : State, s.NoReset → step s = .next t → t.cmdErr ≠ s.cmdErr →
    s.running = none ∧ ∃ off data rest, s.pending = .write off 4 data :: rest ∧
      ((off.toNat = 0x100 ∧ ¬ LegalCommandWord (data.setWidth 32) ∧ t.cmdErr = true) ∨
       (off.toNat = 0x104 ∧ data.getLsbD 0 = true ∧ t.cmdErr = false))

/-- While a command is in progress the port accepts no access, and the one response it gives is the OKAY of the command's
end (R145). -/
def Obligations.PortIsHeldDuringACommand : Prop :=
  ∀ (s t : State) (u : UnitId), s.NoReset → s.running = some u → step s = .next t →
    t.pending = s.pending ∧
    ((t.running = some u ∧ t.responses = s.responses) ∨ (t.running = none ∧ t.responses = .okay :: s.responses))

/-! ### The hash functions -/

/-- The three mixing functions; the two forms of choice and of majority are equal (R201). -/
def Obligations.MixingFunctionFormsAgree : Prop :=
  ∀ x y z : Word,
    (choice x y z = (x &&& y) ^^^ (~~~x &&& z) ∧ choice x y z = ((y ^^^ z) &&& x) ^^^ z) ∧
    parity x y z = x ^^^ y ^^^ z ∧
    (majority x y z = (x &&& y) ^^^ (x &&& z) ^^^ (y &&& z) ∧ majority x y z = (x &&& y) ||| ((x ||| y) &&& z))

/-- The SHA-1 schedule of a 64-byte block (R202): the first 16 words are its big-endian words, each later one is the
recurrence. -/
def Obligations.Sha1ScheduleIsTheRecurrence : Prop :=
  ∀ blk : List Byte, blk.length = 64 →
    (sha1Schedule blk).length = 80 ∧
    (∀ t, t < 16 → (sha1Schedule blk).getD t 0 =
      blk.getD (4 * t) 0 ++ blk.getD (4 * t + 1) 0 ++ blk.getD (4 * t + 2) 0 ++ blk.getD (4 * t + 3) 0) ∧
    ∀ t, 16 ≤ t → t < 80 → (sha1Schedule blk).getD t 0 =
      rol ((sha1Schedule blk).getD (t - 3) 0 ^^^ (sha1Schedule blk).getD (t - 8) 0 ^^^
        (sha1Schedule blk).getD (t - 14) 0 ^^^ (sha1Schedule blk).getD (t - 16) 0) 1

/-- SHA1SU0 then SHA1SU1 on the ring give the next four schedule words (R224): for any 16 words w(0) to w(15) followed by
four words of the recurrence. -/
def Obligations.Sha1ScheduleStepsAreTheRecurrence : Prop :=
  ∀ w : Nat → Word, (∀ t, 16 ≤ t → t < 20 → w t = rol (w (t - 3) ^^^ w (t - 8) ^^^ w (t - 14) ^^^ w (t - 16)) 1) →
    sha1Su1 (sha1Su0 ⟨w 0, w 1, w 2, w 3⟩ ⟨w 4, w 5, w 6, w 7⟩ ⟨w 8, w 9, w 10, w 11⟩) ⟨w 12, w 13, w 14, w 15⟩ =
      ⟨w 16, w 17, w 18, w 19⟩

/-- After four SHA-1 rounds the new e is ROL(a, 30) of the a before them (R225). -/
def Obligations.EAfterFourRoundsIsRotatedA : Prop :=
  ∀ (f : Word → Word → Word → Word) (w : Vec) (x : Sha1State), (sha1FourRounds f w x).e = rol x.a 30

/-- The SHA-256 schedule of a 64-byte block (R252). -/
def Obligations.Sha256ScheduleIsTheRecurrence : Prop :=
  ∀ blk : List Byte, blk.length = 64 →
    (sha256Schedule blk).length = 64 ∧
    (∀ t, t < 16 → (sha256Schedule blk).getD t 0 =
      blk.getD (4 * t) 0 ++ blk.getD (4 * t + 1) 0 ++ blk.getD (4 * t + 2) 0 ++ blk.getD (4 * t + 3) 0) ∧
    ∀ t, 16 ≤ t → t < 64 → (sha256Schedule blk).getD t 0 =
      smallSigma1 ((sha256Schedule blk).getD (t - 2) 0) + (sha256Schedule blk).getD (t - 7) 0 +
        smallSigma0 ((sha256Schedule blk).getD (t - 15) 0) + (sha256Schedule blk).getD (t - 16) 0

/-- SHA256SU0 then SHA256SU1 on the ring give the next four schedule words (R274). -/
def Obligations.Sha256ScheduleStepsAreTheRecurrence : Prop :=
  ∀ w : Nat → Word,
    (∀ t, 16 ≤ t → t < 20 → w t = smallSigma1 (w (t - 2)) + w (t - 7) + smallSigma0 (w (t - 15)) + w (t - 16)) →
    sha256Su1 (sha256Su0 ⟨w 0, w 1, w 2, w 3⟩ ⟨w 4, w 5, w 6, w 7⟩) ⟨w 8, w 9, w 10, w 11⟩ ⟨w 12, w 13, w 14, w 15⟩ =
      ⟨w 16, w 17, w 18, w 19⟩

/-! ### The micro-programs compute the hash functions -/

/-- SHA1_COMPRESS (R146, R220, R223): with the fixed ROM, all inputs written and reset not asserted, the command and then
U1's 149 micro-operations leave exactly what the one-step form with SHA1_COMPRESS_FN leaves: U1.STATE the next state, every
other byte as it was; the command answered OKAY, U1 idle, U2 and CMD_ERR untouched. -/
def Obligations.Sha1MicroProgramComputesTheCompression : Prop :=
  ∀ (s : State) (m : Memory), s.rom1 = Rom.u1 → s.resetLine = [] → sha1CompressMemory s = .ok m →
    ∃ t0 t, exec .sha1Compress s = .next t0 ∧ Host.Core.run core 149 t0 = .next t ∧
      t.mem = m ∧ t.running = none ∧ t.u1.upc = 0 ∧
      KeepsRest .u1 { s with running := none, responses := .okay :: s.responses } t

/-- SHA256_COMPRESS (R147, R270, R273): the same of U2, its 121 micro-operations and SHA256_COMPRESS_FN. -/
def Obligations.Sha256MicroProgramComputesTheCompression : Prop :=
  ∀ (s : State) (m : Memory), s.rom2 = Rom.u2 → s.resetLine = [] → sha256CompressMemory s = .ok m →
    ∃ t0 t, exec .sha256Compress s = .next t0 ∧ Host.Core.run core 121 t0 = .next t ∧
      t.mem = m ∧ t.running = none ∧ t.u2.upc = 0 ∧
      KeepsRest .u2 { s with running := none, responses := .okay :: s.responses } t
end

