-- ==== Sys2Proof/Laws/Bytes.lean ====
section
/-! SUPPORT. Byte order (R72): which bit of which byte each bit of a value is. -/

namespace Sys2Proof.Machine

/-- Bit `i` of a little-endian value is bit `i mod 8` of byte `i div 8`. -/
theorem leValue_getLsbD (bs : List Byte) (w i : Nat) :
    (leValue w bs).getLsbD i = (decide (i < w) && ((bs[i / 8]?.getD 0).getLsbD (i % 8))) := by
  induction bs generalizing i with
  | nil => simp [leValue]
  | cons b bs ih =>
    simp only [leValue, BitVec.getLsbD_or, BitVec.getLsbD_shiftLeft, BitVec.getLsbD_setWidth]
    by_cases hi : i < 8
    · simp [hi, show i / 8 = 0 by omega, show i % 8 = i by omega]
    · rw [ih]
      have h1 : i / 8 = (i - 8) / 8 + 1 := by omega
      have h2 : b.getLsbD i = false := BitVec.getLsbD_of_ge _ _ (by omega)
      by_cases hw : i < w
      · simp [hi, h2, h1, hw, show i - 8 < w by omega, show (i - 8) % 8 = i % 8 by omega]
      · simp [hw]

/-- Byte `k` of a value's bytes is its bits `8k + 7` to `8k`. -/
theorem leBytes_getElem {w : Nat} (x : BitVec w) (n k : Nat) (h : k < (leBytes x n).length) :
    (leBytes x n)[k] = x.extractLsb' (8 * k) 8 := by
  induction n generalizing x k with
  | zero => simp [leBytes] at h
  | succ n ih =>
    cases k with
    | zero => simp only [leBytes, List.getElem_cons_zero]; ext i hi; simp
    | succ k =>
      simp only [leBytes, List.getElem_cons_succ]
      rw [ih]
      ext i hi
      simp [show 8 + (8 * k + i) = 8 * (k + 1) + i by omega]

end Sys2Proof.Machine
end

