-- ==== Sys2Proof/Laws/Decode.lean ====
section
/-! SUPPORT. The fields of a packed word (R110): the decoder's field readers undo `pack`, and masking a packed word masks
its fields. -/

namespace Sys2Proof

@[simp] theorem uopOf_pack (uop : BitVec 8) (d n m : Reg) (imm : BitVec 12) : uopOf (pack uop d n m imm) = uop := by
  ext i hi
  simp only [uopOf, pack, BitVec.getElem_extractLsb', BitVec.getLsbD_append]
  rw [if_neg (by omega), if_neg (by omega), if_neg (by omega), if_neg (by omega),
    show 24 + i - 12 - 4 - 4 - 4 = i by omega, BitVec.getLsbD_eq_getElem hi]

@[simp] theorem dOf_pack (uop : BitVec 8) (d n m : Reg) (imm : BitVec 12) : dOf (pack uop d n m imm) = d := by
  have h : (pack uop d n m imm).extractLsb' 20 4 = BitVec.ofFin (w := 4) d := by
    ext i hi
    simp only [pack, BitVec.getElem_extractLsb', BitVec.getLsbD_append]
    rw [if_neg (by omega), if_neg (by omega), if_neg (by omega), if_pos (by omega),
      show 20 + i - 12 - 4 - 4 = i by omega, BitVec.getLsbD_eq_getElem hi]
  rw [dOf, h]

@[simp] theorem nOf_pack (uop : BitVec 8) (d n m : Reg) (imm : BitVec 12) : nOf (pack uop d n m imm) = n := by
  have h : (pack uop d n m imm).extractLsb' 16 4 = BitVec.ofFin (w := 4) n := by
    ext i hi
    simp only [pack, BitVec.getElem_extractLsb', BitVec.getLsbD_append]
    rw [if_neg (by omega), if_neg (by omega), if_pos (by omega),
      show 16 + i - 12 - 4 = i by omega, BitVec.getLsbD_eq_getElem hi]
  rw [nOf, h]

@[simp] theorem mOf_pack (uop : BitVec 8) (d n m : Reg) (imm : BitVec 12) : mOf (pack uop d n m imm) = m := by
  have h : (pack uop d n m imm).extractLsb' 12 4 = BitVec.ofFin (w := 4) m := by
    ext i hi
    simp only [pack, BitVec.getElem_extractLsb', BitVec.getLsbD_append]
    rw [if_neg (by omega), if_pos (by omega), show 12 + i - 12 = i by omega, BitVec.getLsbD_eq_getElem hi]
  rw [mOf, h]

@[simp] theorem immOf_pack (uop : BitVec 8) (d n m : Reg) (imm : BitVec 12) : immOf (pack uop d n m imm) = imm := by
  ext i hi
  simp only [immOf, pack, BitVec.getElem_extractLsb', BitVec.getLsbD_append]
  rw [if_pos (by omega), show 0 + i = i by omega, BitVec.getLsbD_eq_getElem hi]

/-- A word is its five fields packed (R110): the layout has no other bit. -/
theorem pack_fields (w : Word) : pack (uopOf w) (dOf w) (nOf w) (mOf w) (immOf w) = w := by
  ext i hi
  simp only [pack, dOf, nOf, mOf, uopOf, immOf, ← BitVec.getLsbD_eq_getElem, BitVec.getLsbD_append,
    BitVec.getLsbD_extractLsb', BitVec.ofFin_toFin]
  split
  · simp [*]
  · split
    · simp [*, show 12 + (i - 12) = i by omega]
    · split
      · simp [*, show 16 + (i - 12 - 4) = i by omega]
      · split
        · simp [*, show 20 + (i - 12 - 4 - 4) = i by omega]
        · simp [show i - 12 - 4 - 4 - 4 < 8 by omega, show 24 + (i - 12 - 4 - 4 - 4) = i by omega]

theorem append_and {a b : Nat} (x y : BitVec a) (z w : BitVec b) :
    (x ++ z) &&& (y ++ w) = (x &&& y) ++ (z &&& w) := by
  ext i hi
  simp only [BitVec.getElem_and, BitVec.getElem_append]
  split <;> rfl

/-- Masking a packed word masks each field. -/
theorem pack_and (u v : BitVec 8) (d e n o m p : Reg) (imm j : BitVec 12) :
    pack u d n m imm &&& pack v e o p j =
      (u &&& v) ++ (BitVec.ofFin (w := 4) d &&& BitVec.ofFin e) ++ (BitVec.ofFin (w := 4) n &&& BitVec.ofFin o) ++
        (BitVec.ofFin (w := 4) m &&& BitVec.ofFin p) ++ (imm &&& j) := by
  refine (append_and _ _ _ _).trans ?_
  rw [append_and, append_and, append_and]

end Sys2Proof
end

