-- ==== Sys2Proof/Laws/State.lean ====
section
/-! SUPPORT. One lemma per field per update of the state: what each named update leaves in each field. -/

namespace Sys2Proof.Machine

/-! ### Units -/

@[simp] theorem setUnit_unit_same (s : State) (u : UnitId) (x : UnitState) : (s.setUnit u x).unit u = x := by
  cases u <;> rfl

theorem setUnit_unit_other (s : State) {u w : UnitId} (x : UnitState) (h : w ≠ u) :
    (s.setUnit u x).unit w = s.unit w := by
  cases u <;> cases w <;> first | rfl | exact absurd rfl h

@[simp] theorem setUnit_mem (s : State) (u : UnitId) (x : UnitState) : (s.setUnit u x).mem = s.mem := by
  cases u <;> rfl

@[simp] theorem setUnit_cmdErr (s : State) (u : UnitId) (x : UnitState) : (s.setUnit u x).cmdErr = s.cmdErr := by
  cases u <;> rfl

@[simp] theorem setUnit_running (s : State) (u : UnitId) (x : UnitState) : (s.setUnit u x).running = s.running := by
  cases u <;> rfl

@[simp] theorem setUnit_rom1 (s : State) (u : UnitId) (x : UnitState) : (s.setUnit u x).rom1 = s.rom1 := by
  cases u <;> rfl

@[simp] theorem setUnit_rom2 (s : State) (u : UnitId) (x : UnitState) : (s.setUnit u x).rom2 = s.rom2 := by
  cases u <;> rfl

@[simp] theorem setUnit_pending (s : State) (u : UnitId) (x : UnitState) : (s.setUnit u x).pending = s.pending := by
  cases u <;> rfl

@[simp] theorem setUnit_responses (s : State) (u : UnitId) (x : UnitState) :
    (s.setUnit u x).responses = s.responses := by
  cases u <;> rfl

@[simp] theorem setUnit_resetLine (s : State) (u : UnitId) (x : UnitState) :
    (s.setUnit u x).resetLine = s.resetLine := by
  cases u <;> rfl

@[simp] theorem setUnit_setUnit (s : State) (u : UnitId) (x y : UnitState) :
    (s.setUnit u x).setUnit u y = s.setUnit u y := by
  cases u <;> rfl

@[simp] theorem setUnit_unit (s : State) (u : UnitId) : s.setUnit u (s.unit u) = s := by
  cases u <;> rfl

@[simp] theorem unit_u1 (s : State) : s.unit .u1 = s.u1 := rfl

@[simp] theorem unit_u2 (s : State) : s.unit .u2 = s.u2 := rfl

theorem setUnit_rom (s : State) (u w : UnitId) (x : UnitState) : (s.setUnit u x).rom w = s.rom w := by
  cases u <;> cases w <;> rfl

/-! ### Registers of a unit -/

theorem setV_v_same (t : UnitState) (r : Reg) (x : Vec) : (t.setV r x).v[r] = x := by
  simp [UnitState.setV]

@[simp] theorem setV_v_val (t : UnitState) (r : Reg) (x : Vec) : (t.setV r x).v[r.val] = x :=
  setV_v_same t r x

theorem setV_v_other (t : UnitState) {r q : Reg} (x : Vec) (h : q ≠ r) : (t.setV r x).v[q] = t.v[q] := by
  have h' : r.val ≠ q.val := fun e => h (Fin.ext e.symm)
  simp [UnitState.setV, h']

theorem setV_vWritten_same (t : UnitState) (r : Reg) (x : Vec) : (t.setV r x).vWritten[r] = true := by
  simp [UnitState.setV]

@[simp] theorem setV_vWritten_val (t : UnitState) (r : Reg) (x : Vec) : (t.setV r x).vWritten[r.val] = true :=
  setV_vWritten_same t r x

theorem setV_vWritten_other (t : UnitState) {r q : Reg} (x : Vec) (h : q ≠ r) :
    (t.setV r x).vWritten[q] = t.vWritten[q] := by
  have h' : r.val ≠ q.val := fun e => h (Fin.ext e.symm)
  simp [UnitState.setV, h']

@[simp] theorem setV_s (t : UnitState) (r : Reg) (x : Vec) : (t.setV r x).s = t.s := rfl

@[simp] theorem setV_sWritten (t : UnitState) (r : Reg) (x : Vec) : (t.setV r x).sWritten = t.sWritten := rfl

@[simp] theorem setV_upc (t : UnitState) (r : Reg) (x : Vec) : (t.setV r x).upc = t.upc := rfl

theorem setS_s_same (t : UnitState) (r : Reg) (x : Word) : (t.setS r x).s[r] = x := by
  simp [UnitState.setS]

@[simp] theorem setS_s_val (t : UnitState) (r : Reg) (x : Word) : (t.setS r x).s[r.val] = x :=
  setS_s_same t r x

theorem setS_s_other (t : UnitState) {r q : Reg} (x : Word) (h : q ≠ r) : (t.setS r x).s[q] = t.s[q] := by
  have h' : r.val ≠ q.val := fun e => h (Fin.ext e.symm)
  simp [UnitState.setS, h']

theorem setS_sWritten_same (t : UnitState) (r : Reg) (x : Word) : (t.setS r x).sWritten[r] = true := by
  simp [UnitState.setS]

@[simp] theorem setS_sWritten_val (t : UnitState) (r : Reg) (x : Word) : (t.setS r x).sWritten[r.val] = true :=
  setS_sWritten_same t r x

theorem setS_sWritten_other (t : UnitState) {r q : Reg} (x : Word) (h : q ≠ r) :
    (t.setS r x).sWritten[q] = t.sWritten[q] := by
  have h' : r.val ≠ q.val := fun e => h (Fin.ext e.symm)
  simp [UnitState.setS, h']

@[simp] theorem setS_v (t : UnitState) (r : Reg) (x : Word) : (t.setS r x).v = t.v := rfl

@[simp] theorem setS_vWritten (t : UnitState) (r : Reg) (x : Word) : (t.setS r x).vWritten = t.vWritten := rfl

@[simp] theorem setS_upc (t : UnitState) (r : Reg) (x : Word) : (t.setS r x).upc = t.upc := rfl

@[simp] theorem started_upc (t : UnitState) : t.started.upc = 0 := rfl

@[simp] theorem started_v (t : UnitState) : t.started.v = t.v := rfl

@[simp] theorem started_s (t : UnitState) : t.started.s = t.s := rfl

@[simp] theorem started_vWritten (t : UnitState) : t.started.vWritten = Vector.replicate 16 false := rfl

@[simp] theorem started_sWritten (t : UnitState) : t.started.sWritten = Vector.replicate 16 false := rfl

/-! ### Memory, flag and response updates -/

@[simp] theorem storeBytes_mem (s : State) (a : Nat) (bs : List Byte) :
    (s.storeBytes a bs).mem = s.mem.store a bs := rfl

@[simp] theorem storeBytes_unit (s : State) (a : Nat) (bs : List Byte) (u : UnitId) :
    (s.storeBytes a bs).unit u = s.unit u := by
  cases u <;> rfl

@[simp] theorem storeBytes_cmdErr (s : State) (a : Nat) (bs : List Byte) : (s.storeBytes a bs).cmdErr = s.cmdErr := rfl

@[simp] theorem storeBytes_running (s : State) (a : Nat) (bs : List Byte) :
    (s.storeBytes a bs).running = s.running := rfl

@[simp] theorem storeBytes_rom1 (s : State) (a : Nat) (bs : List Byte) : (s.storeBytes a bs).rom1 = s.rom1 := rfl

@[simp] theorem storeBytes_rom2 (s : State) (a : Nat) (bs : List Byte) : (s.storeBytes a bs).rom2 = s.rom2 := rfl

@[simp] theorem storeBytes_pending (s : State) (a : Nat) (bs : List Byte) :
    (s.storeBytes a bs).pending = s.pending := rfl

@[simp] theorem storeBytes_responses (s : State) (a : Nat) (bs : List Byte) :
    (s.storeBytes a bs).responses = s.responses := rfl

@[simp] theorem storeBytes_resetLine (s : State) (a : Nat) (bs : List Byte) :
    (s.storeBytes a bs).resetLine = s.resetLine := rfl

@[simp] theorem respond_mem (s : State) (r : Response) : (s.respond r).mem = s.mem := rfl

@[simp] theorem respond_unit (s : State) (r : Response) (u : UnitId) : (s.respond r).unit u = s.unit u := by
  cases u <;> rfl

@[simp] theorem respond_cmdErr (s : State) (r : Response) : (s.respond r).cmdErr = s.cmdErr := rfl

@[simp] theorem respond_running (s : State) (r : Response) : (s.respond r).running = s.running := rfl

@[simp] theorem respond_rom1 (s : State) (r : Response) : (s.respond r).rom1 = s.rom1 := rfl

@[simp] theorem respond_rom2 (s : State) (r : Response) : (s.respond r).rom2 = s.rom2 := rfl

@[simp] theorem respond_pending (s : State) (r : Response) : (s.respond r).pending = s.pending := rfl

@[simp] theorem respond_responses (s : State) (r : Response) : (s.respond r).responses = r :: s.responses := rfl

@[simp] theorem respond_resetLine (s : State) (r : Response) : (s.respond r).resetLine = s.resetLine := rfl

@[simp] theorem setCmdErr_cmdErr (s : State) : s.setCmdErr.cmdErr = true := rfl

@[simp] theorem setCmdErr_mem (s : State) : s.setCmdErr.mem = s.mem := rfl

@[simp] theorem setCmdErr_unit (s : State) (u : UnitId) : s.setCmdErr.unit u = s.unit u := by cases u <;> rfl

@[simp] theorem setCmdErr_running (s : State) : s.setCmdErr.running = s.running := rfl

@[simp] theorem setCmdErr_rom1 (s : State) : s.setCmdErr.rom1 = s.rom1 := rfl

@[simp] theorem setCmdErr_rom2 (s : State) : s.setCmdErr.rom2 = s.rom2 := rfl

@[simp] theorem setCmdErr_pending (s : State) : s.setCmdErr.pending = s.pending := rfl

@[simp] theorem setCmdErr_responses (s : State) : s.setCmdErr.responses = s.responses := rfl

@[simp] theorem setCmdErr_resetLine (s : State) : s.setCmdErr.resetLine = s.resetLine := rfl

/-- A STATUS write changes CMD_ERR and nothing else (R144). -/
theorem writeStatus_eq (s : State) (data : Word) :
    s.writeStatus data = { s with cmdErr := s.cmdErr && !data.getLsbD 0 } := by
  unfold State.writeStatus
  cases h : data.getLsbD 0 <;> simp

/-! ### Sequencing updates -/

@[simp] theorem advance_unit_same (s : State) (u : UnitId) :
    (s.advance u).unit u = { s.unit u with upc := (s.unit u).upc + 1 } := by
  simp [State.advance, State.setUpc]

theorem advance_unit_other (s : State) {u w : UnitId} (h : w ≠ u) : (s.advance u).unit w = s.unit w :=
  setUnit_unit_other _ _ h

@[simp] theorem advance_mem (s : State) (u : UnitId) : (s.advance u).mem = s.mem := setUnit_mem ..

@[simp] theorem advance_cmdErr (s : State) (u : UnitId) : (s.advance u).cmdErr = s.cmdErr := setUnit_cmdErr ..

@[simp] theorem advance_running (s : State) (u : UnitId) : (s.advance u).running = s.running := setUnit_running ..

@[simp] theorem advance_rom1 (s : State) (u : UnitId) : (s.advance u).rom1 = s.rom1 := setUnit_rom1 ..

@[simp] theorem advance_rom2 (s : State) (u : UnitId) : (s.advance u).rom2 = s.rom2 := setUnit_rom2 ..

@[simp] theorem advance_pending (s : State) (u : UnitId) : (s.advance u).pending = s.pending := setUnit_pending ..

@[simp] theorem advance_responses (s : State) (u : UnitId) : (s.advance u).responses = s.responses :=
  setUnit_responses ..

@[simp] theorem advance_resetLine (s : State) (u : UnitId) : (s.advance u).resetLine = s.resetLine :=
  setUnit_resetLine ..

@[simp] theorem startUnit_unit_same (s : State) (u : UnitId) : (s.startUnit u).unit u = (s.unit u).started := by
  cases u <;> rfl

theorem startUnit_unit_other (s : State) {u w : UnitId} (h : w ≠ u) : (s.startUnit u).unit w = s.unit w := by
  cases u <;> cases w <;> first | rfl | exact absurd rfl h

@[simp] theorem startUnit_running (s : State) (u : UnitId) : (s.startUnit u).running = some u := rfl

@[simp] theorem startUnit_mem (s : State) (u : UnitId) : (s.startUnit u).mem = s.mem := by cases u <;> rfl

@[simp] theorem startUnit_cmdErr (s : State) (u : UnitId) : (s.startUnit u).cmdErr = s.cmdErr := by cases u <;> rfl

@[simp] theorem startUnit_rom1 (s : State) (u : UnitId) : (s.startUnit u).rom1 = s.rom1 := by cases u <;> rfl

@[simp] theorem startUnit_rom2 (s : State) (u : UnitId) : (s.startUnit u).rom2 = s.rom2 := by cases u <;> rfl

@[simp] theorem startUnit_pending (s : State) (u : UnitId) : (s.startUnit u).pending = s.pending := by cases u <;> rfl

@[simp] theorem startUnit_responses (s : State) (u : UnitId) : (s.startUnit u).responses = s.responses := by
  cases u <;> rfl

@[simp] theorem startUnit_resetLine (s : State) (u : UnitId) : (s.startUnit u).resetLine = s.resetLine := by
  cases u <;> rfl

@[simp] theorem complete_running (s : State) : s.complete.running = none := rfl

@[simp] theorem complete_responses (s : State) : s.complete.responses = .okay :: s.responses := rfl

@[simp] theorem complete_unit (s : State) (u : UnitId) : s.complete.unit u = s.unit u := by cases u <;> rfl

@[simp] theorem complete_mem (s : State) : s.complete.mem = s.mem := rfl

@[simp] theorem complete_cmdErr (s : State) : s.complete.cmdErr = s.cmdErr := rfl

@[simp] theorem complete_rom1 (s : State) : s.complete.rom1 = s.rom1 := rfl

@[simp] theorem complete_rom2 (s : State) : s.complete.rom2 = s.rom2 := rfl

@[simp] theorem complete_pending (s : State) : s.complete.pending = s.pending := rfl

@[simp] theorem complete_resetLine (s : State) : s.complete.resetLine = s.resetLine := rfl

end Sys2Proof.Machine
end

