-- ==== Sys2Proof/Laws/Memory.lean ====
section
/-! SUPPORT. Memory: a read after a write, the canonical form, and what a load and a store of several bytes do. -/

namespace Sys2Proof.Machine

/-! ### One byte -/

@[simp] theorem byte?_put_same (m : Memory) (a : Nat) (b : Byte) : (m.put a b).byte? a = some b := by
  induction m with
  | nil => simp [Memory.put, Memory.byte?]
  | cons c rest ih =>
    obtain ⟨k, x⟩ := c
    unfold Memory.put
    split
    · simp [Memory.byte?]
    · split
      · simp [Memory.byte?]
      · simp [Memory.byte?, ih]; omega

theorem byte?_put_other (m : Memory) {a c : Nat} (b : Byte) (h : c ≠ a) : (m.put a b).byte? c = m.byte? c := by
  induction m with
  | nil => simp [Memory.put, Memory.byte?]; omega
  | cons e rest ih =>
    obtain ⟨k, x⟩ := e
    unfold Memory.put
    split
    · simp [Memory.byte?]; omega
    · split
      · subst_vars; simp [Memory.byte?, h.symm]
      · simp [Memory.byte?, ih]

/-! ### The canonical form -/

/-- Every address in a memory is above `lo`. -/
def Memory.above (lo : Nat) (m : Memory) : Prop := ∀ c ∈ m, lo < c.1

theorem wf_cons_iff (k : Nat) (x : Byte) (m : Memory) :
    Memory.wf ((k, x) :: m) = true ↔ m.wf = true ∧ m.above k := by
  induction m generalizing k x with
  | nil => simp [Memory.wf, Memory.above]
  | cons c rest ih =>
    obtain ⟨l, y⟩ := c
    simp only [Memory.wf, Bool.and_eq_true, decide_eq_true_eq]
    constructor
    · rintro ⟨hkl, hw⟩
      refine ⟨hw, fun d hd => ?_⟩
      rcases List.mem_cons.mp hd with rfl | hd
      · exact hkl
      · exact lt_trans hkl (((ih l y).mp hw).2 d hd)
    · rintro ⟨hw, ha⟩
      exact ⟨ha (l, y) (by simp), hw⟩

theorem mem_put {m : Memory} {a : Nat} {b : Byte} {c : Host.Cell} (h : c ∈ m.put a b) : c = (a, b) ∨ c ∈ m := by
  induction m with
  | nil => exact .inl (by simpa [Memory.put] using h)
  | cons e rest ih =>
    obtain ⟨k, x⟩ := e
    unfold Memory.put at h
    split at h
    · simpa using h
    · split at h
      · rcases List.mem_cons.mp h with rfl | h
        · exact .inl rfl
        · exact .inr (List.mem_cons_of_mem _ h)
      · rcases List.mem_cons.mp h with rfl | h
        · exact .inr (by simp)
        · exact (ih h).imp id (List.mem_cons_of_mem _)

/-- Writing one byte keeps the canonical form. -/
theorem put_wf {m : Memory} (h : m.wf = true) (a : Nat) (b : Byte) : (m.put a b).wf = true := by
  induction m with
  | nil => rfl
  | cons e rest ih =>
    obtain ⟨k, x⟩ := e
    have hk := (wf_cons_iff k x rest).mp h
    unfold Memory.put
    split
    · rename_i hlt
      refine (wf_cons_iff a b _).mpr ⟨h, fun c hc => ?_⟩
      rcases List.mem_cons.mp hc with rfl | hc
      · exact hlt
      · exact lt_trans hlt (hk.2 c hc)
    · split
      · subst_vars; exact (wf_cons_iff _ b rest).mpr hk
      · refine (wf_cons_iff k x _).mpr ⟨ih hk.1, fun c hc => ?_⟩
        rcases mem_put hc with rfl | hc
        · simp; omega
        · exact hk.2 c hc

/-- Writing bytes keeps the canonical form. -/
theorem store_wf {m : Memory} (h : m.wf = true) (a : Nat) (bs : List Byte) : (m.store a bs).wf = true := by
  induction bs generalizing m a with
  | nil => exact h
  | cons b bs ih => exact ih (put_wf h a b) (a + 1)

/-- Two canonical memories that read the same everywhere are the same list. -/
theorem memory_ext {m m' : Memory} (h : m.wf = true) (h' : m'.wf = true)
    (he : ∀ a, m.byte? a = m'.byte? a) : m = m' := by
  have above_none : ∀ (r : Memory) (k : Nat), r.above k → r.byte? k = none := by
    intro r k
    induction r with
    | nil => intro _; rfl
    | cons e rest ih =>
      intro ha
      have h1 := ha e (by simp)
      simp only [Memory.byte?]
      rw [if_neg (by omega)]
      exact ih fun c hc => ha c (List.mem_cons_of_mem _ hc)
  induction m generalizing m' with
  | nil =>
    cases m' with
    | nil => rfl
    | cons e r => obtain ⟨k, x⟩ := e; simpa [Memory.byte?] using he k
  | cons e r ih =>
    obtain ⟨k, x⟩ := e
    cases m' with
    | nil => simpa [Memory.byte?] using he k
    | cons e' r' =>
      obtain ⟨k', x'⟩ := e'
      have hw := (wf_cons_iff k x r).mp h
      have hw' := (wf_cons_iff k' x' r').mp h'
      have key : k = k' := by
        rcases Nat.lt_trichotomy k k' with hlt | heq | hgt
        · have := he k
          simp only [Memory.byte?, if_neg (show ¬k' = k by omega)] at this
          rw [above_none r' k fun c hc => lt_trans hlt (hw'.2 c hc)] at this
          simp at this
        · exact heq
        · have := he k'
          simp only [Memory.byte?, if_neg (show ¬k = k' by omega)] at this
          rw [above_none r k' fun c hc => lt_trans hgt (hw.2 c hc)] at this
          simp at this
      subst key
      have hx : x = x' := by simpa [Memory.byte?] using he k
      subst hx
      congr 1
      refine ih hw.1 hw'.1 fun a => ?_
      by_cases hka : k = a
      · subst hka; rw [above_none r _ hw.2, above_none r' _ hw'.2]
      · simpa [Memory.byte?, hka] using he a

/-! ### Several bytes -/

theorem byte?_store_outside (m : Memory) {a c : Nat} (bs : List Byte) (h : c < a ∨ a + bs.length ≤ c) :
    (m.store a bs).byte? c = m.byte? c := by
  induction bs generalizing m a with
  | nil => rfl
  | cons b bs ih =>
    simp only [List.length_cons] at h
    rw [Memory.store, ih _ (by omega), byte?_put_other _ _ (by omega)]

theorem byte?_store_inside (m : Memory) (a : Nat) (bs : List Byte) {k : Nat} (h : k < bs.length) :
    (m.store a bs).byte? (a + k) = some bs[k] := by
  induction bs generalizing m a k with
  | nil => simp at h
  | cons b bs ih =>
    rw [Memory.store]
    cases k with
    | zero => rw [byte?_store_outside _ _ (by omega)]; simp
    | succ k =>
      have := ih (m.put a b) (a + 1) (k := k) (by simpa using h)
      simpa [Nat.add_assoc, Nat.add_comm 1 k] using this

theorem store_append (m : Memory) (a : Nat) (bs cs : List Byte) :
    m.store a (bs ++ cs) = (m.store a bs).store (a + bs.length) cs := by
  induction bs generalizing m a with
  | nil => rfl
  | cons b bs ih =>
    rw [List.cons_append, Memory.store, ih, Memory.store, List.length_cons, Nat.add_assoc, Nat.add_comm 1]

/-- Every address a store leaves listed was listed or is one of the stored bytes. -/
theorem mem_store {m : Memory} {a : Nat} {bs : List Byte} {c : Host.Cell} (h : c ∈ m.store a bs) :
    c ∈ m ∨ (a ≤ c.1 ∧ c.1 < a + bs.length) := by
  induction bs generalizing m a with
  | nil => exact .inl h
  | cons b bs ih =>
    rcases ih h with h | h
    · rcases mem_put h with rfl | h
      · exact .inr (by simp)
      · exact .inl h
    · exact .inr (by simp; omega)

/-- A load answers the bytes exactly when each one is written. -/
theorem load_ok_iff (m : Memory) (a n : Nat) (bs : List Byte) :
    m.load a n = .ok bs ↔ bs.length = n ∧ ∀ k (h : k < bs.length), m.byte? (a + k) = some bs[k] := by
  induction n generalizing a bs with
  | zero =>
    simp only [Memory.load, Except.ok.injEq]
    constructor
    · rintro rfl; simp
    · rintro ⟨h, -⟩; exact (List.length_eq_zero_iff.mp h).symm
  | succ n ih =>
    rw [Memory.load]
    cases hb : m.byte? a with
    | none =>
      refine ⟨fun h => (by simp at h), fun ⟨hl, h⟩ => ?_⟩
      have := h 0 (by omega)
      simp [hb] at this
    | some b =>
      cases hl : m.load (a + 1) n with
      | error e =>
        refine ⟨fun h => (by simp at h), fun ⟨hlen, h⟩ => ?_⟩
        cases bs with
        | nil => simp at hlen
        | cons c cs =>
          have : m.load (a + 1) n = .ok cs := (ih (a + 1) cs).mpr ⟨by simpa using hlen, fun k hk => by
            have := h (k + 1) (by simpa using hk)
            simpa [Nat.add_assoc, Nat.add_comm 1 k] using this⟩
          rw [hl] at this
          simp at this
      | ok cs =>
        obtain ⟨hlen, hcs⟩ := (ih (a + 1) cs).mp hl
        simp only [Except.ok.injEq]
        constructor
        · rintro rfl
          refine ⟨by simp [hlen], fun k hk => ?_⟩
          cases k with
          | zero => simpa using hb
          | succ k =>
            have := hcs k (by simpa using hk)
            simpa [Nat.add_assoc, Nat.add_comm 1 k] using this
        · rintro ⟨hlen', h⟩
          cases bs with
          | nil => simp at hlen'
          | cons d ds =>
            have h0 := h 0 (by simp)
            have hds : m.load (a + 1) n = .ok ds := (ih (a + 1) ds).mpr ⟨by simpa using hlen', fun k hk => by
              have := h (k + 1) (by simpa using hk)
              simpa [Nat.add_assoc, Nat.add_comm 1 k] using this⟩
            rw [hl] at hds
            simp [hb] at h0
            simp_all

/-- A load that fails names the lowest unwritten address (R305). -/
theorem load_error_iff (m : Memory) (a n e : Nat) :
    m.load a n = .error e ↔
      (a ≤ e ∧ e < a + n ∧ m.byte? e = none ∧ ∀ c, a ≤ c → c < e → (m.byte? c).isSome = true) := by
  induction n generalizing a with
  | zero => simp [Memory.load]; omega
  | succ n ih =>
    rw [Memory.load]
    cases hb : m.byte? a with
    | none =>
      simp only [Except.error.injEq]
      constructor
      · rintro rfl; exact ⟨le_refl _, by omega, hb, fun c h1 h2 => by omega⟩
      · rintro ⟨h1, -, -, h4⟩
        rcases Nat.lt_or_ge a e with hlt | hge
        · have := h4 a (le_refl _) hlt
          simp [hb] at this
        · omega
    | some b =>
      have key : ∀ r : Except Nat (List Byte), r = .error e ↔
          (match r with | .ok bs => Except.ok (b :: bs) | .error e => .error e) = .error e := by
        intro r; cases r <;> simp
      refine (key _).symm.trans ((ih (a + 1)).trans ?_)
      constructor
      · rintro ⟨h1, h2, h3, h4⟩
        refine ⟨by omega, by omega, h3, fun c hc1 hc2 => ?_⟩
        rcases Nat.eq_or_lt_of_le hc1 with rfl | hlt
        · simp [hb]
        · exact h4 c (by omega) hc2
      · rintro ⟨h1, h2, h3, h4⟩
        rcases Nat.eq_or_lt_of_le h1 with rfl | hlt
        · simp [hb] at h3
        · exact ⟨by omega, by omega, h3, fun c hc1 hc2 => h4 c (by omega) hc2⟩

/-- A load sees what a store of the same bytes left. -/
theorem load_store_same (m : Memory) (a : Nat) (bs : List Byte) : (m.store a bs).load a bs.length = .ok bs :=
  (load_ok_iff _ _ _ _).mpr ⟨rfl, fun _ hk => byte?_store_inside m a bs hk⟩

/-- A load of written bytes answers. -/
theorem load_of_written (m : Memory) (a n : Nat) (h : ∀ k < n, (m.byte? (a + k)).isSome = true) :
    ∃ bs, m.load a n = .ok bs := by
  cases hl : m.load a n with
  | ok bs => exact ⟨bs, rfl⟩
  | error e =>
    obtain ⟨h1, h2, h3, -⟩ := (load_error_iff m a n e).mp hl
    have := h (e - a) (by omega)
    rw [show a + (e - a) = e by omega, h3] at this
    simp at this

end Sys2Proof.Machine
end

