-- ==== Sys2Proof/Laws/Ops.lean ====
section
/-! SUPPORT. What each shared operation can do: one lemma for each, which later proofs cite instead of unfolding it. -/

namespace Sys2Proof.Machine

/-! ### Reads -/

theorem readV_ok_iff (s : State) (u : UnitId) (r : Reg) (x : Vec) :
    s.readV u r = .ok x ↔ (s.unit u).vWritten[r] = true ∧ (s.unit u).v[r] = x := by
  unfold State.readV
  split <;> simp_all

theorem readS_ok_iff (s : State) (u : UnitId) (r : Reg) (x : Word) :
    s.readS u r = .ok x ↔ (s.unit u).sWritten[r] = true ∧ (s.unit u).s[r] = x := by
  unfold State.readS
  split <;> simp_all

theorem readV_of_written {s : State} {u : UnitId} {r : Reg} (h : (s.unit u).vWritten[r] = true) :
    s.readV u r = .ok (s.unit u).v[r] :=
  (readV_ok_iff ..).mpr ⟨h, rfl⟩

theorem readS_of_written {s : State} {u : UnitId} {r : Reg} (h : (s.unit u).sWritten[r] = true) :
    s.readS u r = .ok (s.unit u).s[r] :=
  (readS_ok_iff ..).mpr ⟨h, rfl⟩

theorem readV_of_unwritten {s : State} {u : UnitId} {r : Reg} (h : (s.unit u).vWritten[r] = false) :
    s.readV u r = .error (.uninit (.vreg u r)) := by
  unfold State.readV
  rw [h]
  rfl

theorem readS_of_unwritten {s : State} {u : UnitId} {r : Reg} (h : (s.unit u).sWritten[r] = false) :
    s.readS u r = .error (.uninit (.sreg u r)) := by
  unfold State.readS
  rw [h]
  rfl

theorem loadBytes_ok_iff (s : State) (a n : Nat) (bs : List Byte) :
    s.loadBytes a n = .ok bs ↔ bs.length = n ∧ ∀ k (h : k < bs.length), s.mem.byte? (a + k) = some bs[k] := by
  rw [← load_ok_iff]
  unfold State.loadBytes
  cases s.mem.load a n <;> simp

theorem loadBytes_error_iff (s : State) (a n : Nat) (f : Fault) :
    s.loadBytes a n = .error f ↔ ∃ e, f = .uninit (.window e) ∧
      a ≤ e ∧ e < a + n ∧ s.mem.byte? e = none ∧ ∀ c, a ≤ c → c < e → (s.mem.byte? c).isSome = true := by
  unfold State.loadBytes
  cases h : s.mem.load a n with
  | ok bs =>
    simp only [reduceCtorEq, false_iff]
    rintro ⟨e, -, he⟩
    rw [← load_error_iff, h] at he
    simp at he
  | error e =>
    simp only [Except.error.injEq]
    constructor
    · rintro rfl; exact ⟨e, rfl, (load_error_iff ..).mp h⟩
    · rintro ⟨e', rfl, he⟩
      rw [← load_error_iff, h] at he
      simpa using he

theorem loadBytes_of_written {s : State} {a n : Nat} (h : ∀ k < n, s.ByteWritten (a + k)) :
    ∃ bs, s.loadBytes a n = .ok bs := by
  obtain ⟨bs, hbs⟩ := load_of_written s.mem a n h
  exact ⟨bs, by simp [State.loadBytes, hbs]⟩

/-! ### The frame of a micro-operation -/

/-- A micro-operation on its unit, with its own effect given, goes to the next state. -/
theorem microOp_next {i : Instr} {s t : State} {u : UnitId} {k : UnitId → Except Fault State}
    (hr : s.running = some u) (hw : i.wellFormed (.rom u) = true) (hk : k u = .ok t) :
    microOp i s k = .next (t.advance u) := by
  simp [microOp, hr, hw, hk]

theorem microOp_fault {i : Instr} {s : State} {u : UnitId} {k : UnitId → Except Fault State} {f : Fault}
    (hr : s.running = some u) (hw : i.wellFormed (.rom u) = true) (hk : k u = .error f) :
    microOp i s k = .fault f := by
  simp [microOp, hr, hw, hk]

/-- All that `microOp` can do when it answers a next state. -/
theorem microOp_cases {i : Instr} {s t : State} {k : UnitId → Except Fault State} (h : microOp i s k = .next t) :
    ∃ u t', s.running = some u ∧ i.wellFormed (.rom u) = true ∧ k u = .ok t' ∧ t = t'.advance u := by
  unfold microOp at h
  split at h
  · simp at h
  · rename_i u hu
    split at h
    · rename_i hw
      split at h
      · rename_i t' hk
        exact ⟨u, t', hu, hw, hk, by simpa using h.symm⟩
      · simp at h
    · simp at h

/-! ### The start of a command -/

theorem checkInputs_ok_iff (s : State) (u : UnitId) : s.checkInputs u = .ok () ↔ s.InputsWritten u := by
  have hsplit : ∀ n a, (∃ bs, s.loadBytes a n = .ok bs) ↔ ∀ c, a ≤ c → c < a + n → s.ByteWritten c := by
    intro n a
    constructor
    · rintro ⟨bs, hbs⟩ c h1 h2
      obtain ⟨hl, hb⟩ := (loadBytes_ok_iff ..).mp hbs
      have := hb (c - a) (by omega)
      rw [show a + (c - a) = c by omega] at this
      simp [State.ByteWritten, this]
    · exact fun h => loadBytes_of_written fun k hk => h _ (by omega) (by omega)
  have h1 := hsplit (stateBytes u) (unitBase u)
  have h2 := hsplit blockBytes (unitBase u + blockOff)
  have key : s.checkInputs u = .ok () ↔
      (∃ bs, s.loadBytes (unitBase u) (stateBytes u) = .ok bs) ∧
      (∃ bs, s.loadBytes (unitBase u + blockOff) blockBytes = .ok bs) := by
    unfold State.checkInputs
    cases s.loadBytes (unitBase u) (stateBytes u) <;>
      cases s.loadBytes (unitBase u + blockOff) blockBytes <;>
      simp [bind, Except.bind, pure, Except.pure]
  rw [key, h1, h2]
  simp only [State.InputsWritten, IsInput, blockOff, blockBytes]
  constructor
  · rintro ⟨ha, hb⟩ c (⟨h, h'⟩ | ⟨h, h'⟩)
    · exact ha c h h'
    · exact hb c h (by omega)
  · exact fun h => ⟨fun c h1 h2 => h c (.inl ⟨h1, h2⟩), fun c h1 h2 => h c (.inr ⟨h1, by omega⟩)⟩

/-- All that the start of a command can do when it answers a next state. -/
theorem startCommand_next_iff (u : UnitId) (s t : State) :
    startCommand u s = .next t ↔ s.InputsWritten u ∧ t = s.startUnit u := by
  rw [← checkInputs_ok_iff]
  unfold startCommand
  cases s.checkInputs u <;> simp [eq_comm]

end Sys2Proof.Machine
end

