-- ==== Sys2Proof/Laws/Step.lean ====
section
/-! SUPPORT. What one instruction and one step can do: the inversion of `exec`, and the equations of `step`. -/

namespace Sys2Proof.Machine

/-! ### One instruction -/

/-- The ways a micro-operation's own effect can end: one register written, or bytes stored inside one data region. -/
inductive MicroEffect (u : UnitId) (s t : State) : Prop where
  | vector (d : Reg) (x : Vec) (h : t = s.writeV u d x)
  | scalar (d : Reg) (x : Word) (h : t = s.writeS u d x)
  | memory (imm : BitVec 12) (bs : List Byte) (hl : localLegal u imm.toNat bs.length = true)
      (h : t = s.storeBytes (localAddr u imm) bs)

theorem leBytes_length {w : Nat} (x : BitVec w) (n : Nat) : (leBytes x n).length = n := by
  induction n generalizing x with
  | zero => rfl
  | succ n ih => simp [leBytes, ih]

theorem vecBytes_length (v : Vec) : (vecBytes v).length = 16 := by
  simp [vecBytes, leBytes_length]

/-- `Except`'s bind answers exactly when both parts do. -/
theorem except_bind_ok {ε α β : Type} {x : Except ε α} {f : α → Except ε β} {b : β} :
    (x >>= f) = .ok b ↔ ∃ a, x = .ok a ∧ f a = .ok b := by
  cases x <;> simp [bind, Except.bind]

theorem except_pure_ok {ε α : Type} {a b : α} : (pure a : Except ε α) = .ok b ↔ b = a := by
  simp [pure, Except.pure, eq_comm]

/-- All that an instruction can do when it answers a next state. -/
theorem exec_cases {i : Instr} {s t : State} (h : exec i s = .next t) :
    (i = .nop ∧ t = s.respond .okay) ∨
    (i = .sha1Compress ∧ s.InputsWritten .u1 ∧ t = s.startUnit .u1) ∨
    (i = .sha256Compress ∧ s.InputsWritten .u2 ∧ t = s.startUnit .u2) ∨
    (i = .endOp ∧ ∃ u, s.running = some u ∧ t = (s.setUpc u 0).complete) ∨
    (∃ u t', s.running = some u ∧ i.wellFormed (.rom u) = true ∧ MicroEffect u s t' ∧ t = t'.advance u) := by
  have micro : ∀ {k : UnitId → Except Fault State}, microOp i s k = .next t →
      (∀ u t', i.wellFormed (.rom u) = true → k u = .ok t' → MicroEffect u s t') →
      ∃ u t', s.running = some u ∧ i.wellFormed (.rom u) = true ∧ MicroEffect u s t' ∧ t = t'.advance u := by
    intro k hk hm
    obtain ⟨u, t', hr, hw, he, rfl⟩ := microOp_cases hk
    exact ⟨u, t', hr, hw, hm u t' hw he, rfl⟩
  cases i
  case nop => exact .inl ⟨rfl, by simpa [exec, execNop] using h.symm⟩
  case sha1Compress => exact .inr (.inl ⟨rfl, (startCommand_next_iff ..).mp h⟩)
  case sha256Compress => exact .inr (.inr (.inl ⟨rfl, (startCommand_next_iff ..).mp h⟩))
  case endOp =>
    refine .inr (.inr (.inr (.inl ⟨rfl, ?_⟩)))
    simp only [exec, execEndOp] at h
    split at h
    · simp at h
    · rename_i u hu; exact ⟨u, hu, by simpa using h.symm⟩
  case vdupk d k =>
    simp only [exec, execVdupk] at h
    exact .inr (.inr (.inr (.inr (micro h fun u t' _ he => .vector _ _ (by simpa using he.symm)))))
  case vldk d g =>
    simp only [exec, execVldk] at h
    exact .inr (.inr (.inr (.inr (micro h fun u t' _ he => .vector _ _ (by simpa using he.symm)))))
  all_goals refine .inr (.inr (.inr (.inr (micro h fun u t' hw he => ?_))))
  case vst imm n =>
    obtain ⟨x, -, he⟩ := except_bind_ok.mp he
    refine .memory imm _ ?_ (except_pure_ok.mp he)
    rw [vecBytes_length]
    simpa [Instr.wellFormed, Instr.runsOn, Instr.offsetOk] using hw
  case sst imm n =>
    obtain ⟨x, -, he⟩ := except_bind_ok.mp he
    refine .memory imm _ ?_ (except_pure_ok.mp he)
    rw [leBytes_length]
    simpa [Instr.wellFormed, Instr.runsOn, Instr.offsetOk] using hw
  case vld | vmov | vrev32 =>
    obtain ⟨x, -, he⟩ := except_bind_ok.mp he
    exact .vector _ _ (except_pure_ok.mp he)
  case sld | smov | sgetl | sha1h =>
    obtain ⟨x, -, he⟩ := except_bind_ok.mp he
    exact .scalar _ _ (except_pure_ok.mp he)
  case vadd | sha1su1 | sha256su0 =>
    obtain ⟨x, -, he⟩ := except_bind_ok.mp he
    obtain ⟨y, -, he⟩ := except_bind_ok.mp he
    exact .vector _ _ (except_pure_ok.mp he)
  case sadd =>
    obtain ⟨x, -, he⟩ := except_bind_ok.mp he
    obtain ⟨y, -, he⟩ := except_bind_ok.mp he
    exact .scalar _ _ (except_pure_ok.mp he)
  case sha1c | sha1p | sha1m | sha1su0 | sha256h | sha256h2 | sha256su1 =>
    obtain ⟨x, -, he⟩ := except_bind_ok.mp he
    obtain ⟨y, -, he⟩ := except_bind_ok.mp he
    obtain ⟨z, -, he⟩ := except_bind_ok.mp he
    exact .vector _ _ (except_pure_ok.mp he)

/-! ### One step -/

/-- With reset not asserted, a step is the block's turn. -/
theorem step_eq_blockStep {s : State} (h : s.NoReset) : step s = blockStep s.sampled := by
  unfold step
  unfold State.NoReset at h
  cases hl : s.resetLine with
  | nil => simp [State.sampled, hl]; rw [← hl]
  | cons b rest =>
    cases b with
    | true => simp [hl] at h
    | false => simp [State.sampled, hl]

/-! What using up a reset sample leaves in each field. -/

@[simp] theorem sampled_mem (s : State) : s.sampled.mem = s.mem := rfl

@[simp] theorem sampled_cmdErr (s : State) : s.sampled.cmdErr = s.cmdErr := rfl

@[simp] theorem sampled_running (s : State) : s.sampled.running = s.running := rfl

@[simp] theorem sampled_rom1 (s : State) : s.sampled.rom1 = s.rom1 := rfl

@[simp] theorem sampled_rom2 (s : State) : s.sampled.rom2 = s.rom2 := rfl

@[simp] theorem sampled_pending (s : State) : s.sampled.pending = s.pending := rfl

@[simp] theorem sampled_responses (s : State) : s.sampled.responses = s.responses := rfl

@[simp] theorem sampled_unit (s : State) (u : UnitId) : s.sampled.unit u = s.unit u := by cases u <;> rfl

@[simp] theorem sampled_rom (s : State) (u : UnitId) : s.sampled.rom u = s.rom u := by cases u <;> rfl

@[simp] theorem sampled_resetLine (s : State) : s.sampled.resetLine = s.resetLine.tail := rfl

/-- With reset asserted, a step is the reset. -/
theorem step_eq_reset {s : State} {rest : List Bool} (h : s.resetLine = true :: rest) :
    step s = .next { s with resetLine := rest }.platformReset := by
  simp [step, h]

/-- The executing unit's turn, its word fetched and decoded. -/
theorem blockStep_micro {s : State} {u : UnitId} {w : Word} {i : Instr} (hr : s.running = some u)
    (hf : s.fetchWord? u = some w) (hd : decode (.rom u) w = .ok i) : blockStep s = exec i s := by
  simp [blockStep, hr, microStep, hf, hd]

/-- The port's turn on an access. -/
theorem blockStep_port {s : State} {t : Transaction} {rest : List Transaction} (hr : s.running = none)
    (hp : s.pending = t :: rest) : blockStep s = hostAccess t { s with pending := rest } := by
  simp [blockStep, hr, portStep, hp]

/-- The port's turn with nothing pending. -/
theorem blockStep_idle {s : State} (hr : s.running = none) (hp : s.pending = []) : blockStep s = .next s := by
  simp [blockStep, hr, portStep, hp]

/-- With the port free, a step performs the oldest pending access. -/
theorem step_eq_hostAccess {s : State} {a : Transaction} {rest : List Transaction} (h : s.Serves a rest) :
    step s = hostAccess a { s.sampled with pending := rest } := by
  obtain ⟨hn, hr, hp⟩ := h
  have hr' : s.sampled.running = none := hr
  have hp' : s.sampled.pending = a :: rest := hp
  rw [step_eq_blockStep hn, blockStep_port hr' hp']

/-- All that a host access can do when it answers a next state: a response and nothing else, bytes stored, STATUS
written, an illegal command's flag, or a command's own start. -/
theorem hostAccess_cases {a : Transaction} {s t : State} (h : hostAccess a s = .next t) :
    (∃ r, t = s.respond r) ∨
    (∃ (off n : Nat) (data : BitVec 128), dataAccess off n = true ∧ t = (s.storeBytes off (leBytes data n)).respond .okay) ∨
    (∃ data, t = (s.writeStatus data).respond .okay) ∨
    (t = s.setCmdErr.respond .okay) ∨
    (∃ i, i.isCommand = true ∧ exec i s = .next t) := by
  cases a with
  | read off n =>
    refine .inl ?_
    simp only [hostAccess, hostRead, busError] at h
    split at h
    · split at h
      · exact ⟨_, by simpa using h.symm⟩
      · simp at h
    · split at h
      · exact ⟨_, by simpa using h.symm⟩
      · exact ⟨_, by simpa using h.symm⟩
  | write off n data =>
    simp only [hostAccess, hostWrite, busError] at h
    split at h
    · rename_i hd
      exact .inr (.inl ⟨off.toNat, n, data, hd, by simpa using h.symm⟩)
    · split at h
      · refine .inr (.inr (.inr ?_))
        simp only [command, decode] at h
        split at h
        · rename_i i hi
          refine .inr ⟨i, ?_, h⟩
          simp only [decodeCommand] at hi
          split at hi <;> simp at hi <;> subst hi <;> rfl
        · exact .inl (by simpa using h.symm)
      · split at h
        · exact .inr (.inr (.inl ⟨_, by simpa using h.symm⟩))
        · exact .inl ⟨_, by simpa using h.symm⟩

/-- All that a step can do when it answers a next state: a reset; one micro-operation of the executing unit; one access
of the port; or nothing. -/
theorem step_cases {s t : State} (h : step s = .next t) :
    (∃ rest, s.resetLine = true :: rest ∧ t = { s with resetLine := rest }.platformReset) ∨
    (s.NoReset ∧ ∃ u w i, s.running = some u ∧ s.fetchWord? u = some w ∧ decode (.rom u) w = .ok i ∧
      exec i s.sampled = .next t) ∨
    (s.NoReset ∧ s.running = none ∧ ∃ a rest, s.pending = a :: rest ∧
      hostAccess a { s.sampled with pending := rest } = .next t) ∨
    (s.NoReset ∧ s.running = none ∧ s.pending = [] ∧ t = s.sampled) := by
  by_cases hn : s.NoReset
  · rw [step_eq_blockStep hn] at h
    refine .inr ?_
    unfold blockStep at h
    split at h
    · rename_i u hu
      have hu : s.running = some u := hu
      refine .inl ⟨hn, u, ?_⟩
      unfold microStep at h
      split at h
      · simp at h
      · rename_i w hw
        split at h
        · rename_i i hi
          refine ⟨w, i, hu, ?_, hi, h⟩
          cases u <;> exact hw
        · simp at h
    · rename_i hu
      have hu : s.running = none := hu
      unfold portStep at h
      split at h
      · rename_i hp
        exact .inr (.inr ⟨hn, hu, hp, by simpa using h.symm⟩)
      · rename_i a rest hp
        exact .inr (.inl ⟨hn, hu, a, rest, hp, h⟩)
  · left
    unfold State.NoReset at hn
    cases hl : s.resetLine with
    | nil => simp [hl] at hn
    | cons b rest =>
      cases b with
      | false => simp [hl] at hn
      | true =>
        rw [step_eq_reset hl] at h
        exact ⟨rest, rfl, by simpa using h.symm⟩

/-! ### Runs -/

/-- A run of `a + b` steps is a run of `a` and then one of `b`. -/
theorem run_add (a b : Nat) (s : State) :
    Host.Core.run core (a + b) s =
      match Host.Core.run core a s with
      | .next t => Host.Core.run core b t
      | .fault f => .fault f
      | .refused r => .refused r := by
  induction a generalizing s with
  | zero => simp [Host.Core.run]
  | succ a ih =>
    rw [Nat.add_right_comm]
    simp only [Host.Core.run]
    cases Host.Core.step core s with
    | next t => exact ih t
    | fault f => rfl
    | refused r => rfl

/-- A run's first step, when it answers. -/
theorem run_succ {k : Nat} {s t : State} (h : step s = .next t) :
    Host.Core.run core (k + 1) s = Host.Core.run core k t := by
  have h' : core.step s = .next t := h
  simp only [Host.Core.run, h']

end Sys2Proof.Machine
end

