-- ==== Sys2Proof/Laws/Frames.lean ====
section
/-! SUPPORT. The frames of Safety.lean, once for each kind of micro-operation: one register written, or bytes stored, then
`upc` advanced. -/

namespace Sys2Proof.Machine

theorem keepsRest_of_fields {u : UnitId} {s t : State} (hu : ∀ w, w ≠ u → t.unit w = s.unit w)
    (h1 : t.cmdErr = s.cmdErr) (h2 : t.running = s.running) (h3 : t.rom1 = s.rom1) (h4 : t.rom2 = s.rom2)
    (h5 : t.pending = s.pending) (h6 : t.responses = s.responses) (h7 : t.resetLine = s.resetLine) :
    KeepsRest u s t :=
  ⟨hu, h1, h2, h3, h4, h5, h6, h7⟩

/-- Replacing unit `u` and advancing it leaves the rest of the machine. -/
theorem keepsRest_setUnit (s : State) (u : UnitId) (x : UnitState) : KeepsRest u s ((s.setUnit u x).advance u) := by
  refine keepsRest_of_fields (fun w h => ?_) ?_ ?_ ?_ ?_ ?_ ?_ ?_ <;> try simp
  rw [advance_unit_other _ h, setUnit_unit_other _ _ h]

/-- Writing `V[d]` and advancing is all that a vector operation does (R45, R171). -/
theorem writesV_writeV (s : State) (u : UnitId) (d : Reg) (x : Vec) :
    WritesV u d s ((s.writeV u d x).advance u) := by
  refine ⟨by simp [State.writeV], by simp [State.writeV], fun r hr => ?_, fun r _ => by simp [State.writeV],
    fun a => by simp [State.writeV], keepsRest_setUnit ..⟩
  have hr : r ≠ d := by simpa using hr
  simp [State.writeV, -Fin.getElem_fin, setV_v_other _ _ hr, setV_vWritten_other _ _ hr]

/-- Writing `S[d]` and advancing is all that a scalar operation does (R45, R171). -/
theorem writesS_writeS (s : State) (u : UnitId) (d : Reg) (x : Word) :
    WritesS u d s ((s.writeS u d x).advance u) := by
  refine ⟨by simp [State.writeS], by simp [State.writeS], fun r _ => by simp [State.writeS], fun r hr => ?_,
    fun a => by simp [State.writeS], keepsRest_setUnit ..⟩
  have hr : r ≠ d := by simpa using hr
  simp [State.writeS, -Fin.getElem_fin, setS_s_other _ _ hr, setS_sWritten_other _ _ hr]

/-- The value a vector operation leaves in its destination. -/
theorem writeV_advance_v (s : State) (u : UnitId) (d : Reg) (x : Vec) :
    (((s.writeV u d x).advance u).unit u).v[d] = x := by
  simp [State.writeV]

/-- The value a scalar operation leaves in its destination. -/
theorem writeS_advance_s (s : State) (u : UnitId) (d : Reg) (x : Word) :
    (((s.writeS u d x).advance u).unit u).s[d] = x := by
  simp [State.writeS]

/-- Storing bytes and advancing is all that a store does (R171, R173, R175). -/
theorem stores_storeBytes (s : State) (u : UnitId) (a : Nat) (bs : List Byte) :
    Stores u a bs.length s ((s.storeBytes a bs).advance u) := by
  refine ⟨by simp, fun r _ => by simp, fun r _ => by simp, fun b hb => ?_, ?_⟩
  · simpa using byte?_store_outside s.mem bs hb
  · refine keepsRest_of_fields (fun w h => ?_) ?_ ?_ ?_ ?_ ?_ ?_ ?_ <;> try simp
    rw [advance_unit_other _ h, storeBytes_unit]

end Sys2Proof.Machine
end

