-- ==== Sys2Proof/Laws/PerInstr.lean ====
section
/-! SUPPORT. Statements made once for each instruction as syntax: the encoder's word has its row's fixed bits
(spec/opcode_table.json, columns match and mask; R101, R111, R114). -/

namespace Sys2Proof.Laws.TableRow

/-- The mask column of an instruction's row: a command word whole (R101), else its format's mask (R111). -/
def mask : Instr → Word
  | .nop | .sha1Compress | .sha256Compress | .endOp => 0xFFFFFFFF
  | .vld _ _ | .sld _ _ | .vdupk _ _ | .vldk _ _ => 0xFF0FF000
  | .vst _ _ | .sst _ _ => 0xFFF0F000
  | .vmov _ _ | .smov _ _ | .vrev32 _ _ | .sha1h _ _ | .sha1su1 _ _ | .sha256su0 _ _ => 0xFF00FFFF
  | .sgetl _ _ _ => 0xFF00F000
  | .vadd _ _ _ | .sadd _ _ _ | .sha1c _ _ _ | .sha1p _ _ _ | .sha1m _ _ _ | .sha1su0 _ _ _ | .sha256h _ _ _
  | .sha256h2 _ _ _ | .sha256su1 _ _ _ => 0xFF000FFF

/-- The match column of an instruction's row (R101, R114). -/
def bits : Instr → Word
  | .nop => 0x00000000
  | .sha1Compress => 0x00000001
  | .sha256Compress => 0x00000002
  | .endOp => 0x00000000
  | .vld _ _ => 0x01000000
  | .vst _ _ => 0x02000000
  | .sld _ _ => 0x03000000
  | .sst _ _ => 0x04000000
  | .vmov _ _ => 0x05000000
  | .smov _ _ => 0x06000000
  | .sgetl _ _ _ => 0x07000000
  | .vrev32 _ _ => 0x08000000
  | .vadd _ _ _ => 0x09000000
  | .sadd _ _ _ => 0x0A000000
  | .vdupk _ _ => 0x0B000000
  | .vldk _ _ => 0x0C000000
  | .sha1c _ _ _ => 0x10000000
  | .sha1p _ _ _ => 0x11000000
  | .sha1m _ _ _ => 0x12000000
  | .sha1h _ _ => 0x13000000
  | .sha1su0 _ _ _ => 0x14000000
  | .sha1su1 _ _ => 0x15000000
  | .sha256h _ _ _ => 0x20000000
  | .sha256h2 _ _ _ => 0x21000000
  | .sha256su0 _ _ => 0x22000000
  | .sha256su1 _ _ _ => 0x23000000

/-- The encoder's word has the fixed bits of its row. -/
def Statement (i : Instr) : Prop := encode i &&& mask i = bits i

theorem and_full (u : BitVec 8) : u &&& 255#8 = u := BitVec.and_allOnes

/-- Format FL keeps UOP, N and M. -/
theorem pack_and_FL (u : BitVec 8) (d : Reg) (imm : BitVec 12) :
    pack u d 0 0 imm &&& 0xFF0FF000 = pack u 0 0 0 0 := by
  rw [show (0xFF0FF000 : Word) = pack 0xFF 0 15 15 0 from rfl, pack_and]
  simp [pack, show BitVec.ofFin (w := 4) (0 : Reg) = 0 from rfl, and_full]

/-- Format FS keeps UOP, D and M. -/
theorem pack_and_FS (u : BitVec 8) (n : Reg) (imm : BitVec 12) :
    pack u 0 n 0 imm &&& 0xFFF0F000 = pack u 0 0 0 0 := by
  rw [show (0xFFF0F000 : Word) = pack 0xFF 15 0 15 0 from rfl, pack_and]
  simp [pack, show BitVec.ofFin (w := 4) (0 : Reg) = 0 from rfl, and_full]

/-- Format F2 keeps UOP, M and IMM. -/
theorem pack_and_F2 (u : BitVec 8) (d n : Reg) : pack u d n 0 0 &&& 0xFF00FFFF = pack u 0 0 0 0 := by
  rw [show (0xFF00FFFF : Word) = pack 0xFF 0 0 15 0xFFF from rfl, pack_and]
  simp [pack, show BitVec.ofFin (w := 4) (0 : Reg) = 0 from rfl, and_full]

/-- Format F2I keeps UOP and M. -/
theorem pack_and_F2I (u : BitVec 8) (d n : Reg) (imm : BitVec 12) :
    pack u d n 0 imm &&& 0xFF00F000 = pack u 0 0 0 0 := by
  rw [show (0xFF00F000 : Word) = pack 0xFF 0 0 15 0 from rfl, pack_and]
  simp [pack, show BitVec.ofFin (w := 4) (0 : Reg) = 0 from rfl, and_full]

/-- Format F3 keeps UOP and IMM. -/
theorem pack_and_F3 (u : BitVec 8) (d n m : Reg) : pack u d n m 0 &&& 0xFF000FFF = pack u 0 0 0 0 := by
  rw [show (0xFF000FFF : Word) = pack 0xFF 0 0 0 0xFFF from rfl, pack_and]
  simp [pack, show BitVec.ofFin (w := 4) (0 : Reg) = 0 from rfl, and_full]

theorem nop : Statement .nop := rfl

theorem sha1Compress : Statement .sha1Compress := rfl

theorem sha256Compress : Statement .sha256Compress := rfl

theorem endOp : Statement .endOp := rfl

theorem vld (d : Reg) (imm : BitVec 12) : Statement (.vld d imm) := pack_and_FL ..

theorem vst (imm : BitVec 12) (n : Reg) : Statement (.vst imm n) := pack_and_FS ..

theorem sld (d : Reg) (imm : BitVec 12) : Statement (.sld d imm) := pack_and_FL ..

theorem sst (imm : BitVec 12) (n : Reg) : Statement (.sst imm n) := pack_and_FS ..

theorem vmov (d n : Reg) : Statement (.vmov d n) := pack_and_F2 ..

theorem smov (d n : Reg) : Statement (.smov d n) := pack_and_F2 ..

theorem sgetl (d n : Reg) (lane : Fin 4) : Statement (.sgetl d n lane) := pack_and_F2I ..

theorem vrev32 (d n : Reg) : Statement (.vrev32 d n) := pack_and_F2 ..

theorem vadd (d n m : Reg) : Statement (.vadd d n m) := pack_and_F3 ..

theorem sadd (d n m : Reg) : Statement (.sadd d n m) := pack_and_F3 ..

theorem vdupk (d : Reg) (k : Fin 4) : Statement (.vdupk d k) := pack_and_FL ..

theorem vldk (d : Reg) (g : Fin 16) : Statement (.vldk d g) := pack_and_FL ..

theorem sha1c (d n m : Reg) : Statement (.sha1c d n m) := pack_and_F3 ..

theorem sha1p (d n m : Reg) : Statement (.sha1p d n m) := pack_and_F3 ..

theorem sha1m (d n m : Reg) : Statement (.sha1m d n m) := pack_and_F3 ..

theorem sha1h (d n : Reg) : Statement (.sha1h d n) := pack_and_F2 ..

theorem sha1su0 (d n m : Reg) : Statement (.sha1su0 d n m) := pack_and_F3 ..

theorem sha1su1 (d n : Reg) : Statement (.sha1su1 d n) := pack_and_F2 ..

theorem sha256h (d n m : Reg) : Statement (.sha256h d n m) := pack_and_F3 ..

theorem sha256h2 (d n m : Reg) : Statement (.sha256h2 d n m) := pack_and_F3 ..

theorem sha256su0 (d n : Reg) : Statement (.sha256su0 d n) := pack_and_F2 ..

theorem sha256su1 (d n m : Reg) : Statement (.sha256su1 d n m) := pack_and_F3 ..

end Sys2Proof.Laws.TableRow
end

