-- ==== Sys2Proof/Laws/Window.lean ====
section
/-! SUPPORT. The region map: the model's legality check of a data access is the range form of R76 (a). -/

namespace Sys2Proof.Machine

theorem allIn_iff (r : Region) (o n : Nat) : allIn r o n = true ↔ ∀ k < n, region (o + k) = r := by
  induction n generalizing o with
  | zero => simp [allIn]
  | succ n ih =>
    simp only [allIn, Bool.and_eq_true, decide_eq_true_eq, ih]
    constructor
    · rintro ⟨h, h'⟩ k hk
      cases k with
      | zero => exact h
      | succ k => rw [← h' k (by omega)]; congr 1; omega
    · exact fun h => ⟨h 0 (by omega), fun k hk => by rw [← h (k + 1) (by omega)]; congr 1; omega⟩

/-- Every offset is in one data region's range, or in a region that holds no data. -/
theorem region_cases (o : Nat) :
    (region o = .u1s ∧ o < 0x014) ∨ (region o = .u1b ∧ 0x040 ≤ o ∧ o < 0x080) ∨
    (region o = .u2s ∧ 0x080 ≤ o ∧ o < 0x0A0) ∨ (region o = .u2b ∧ 0x0C0 ≤ o ∧ o < 0x100) ∨
    ((region o).isData = false ∧ ((0x014 ≤ o ∧ o < 0x040) ∨ (0x0A0 ≤ o ∧ o < 0x0C0) ∨ 0x100 ≤ o)) := by
  unfold region
  split_ifs <;> simp [Region.isData] <;> omega

/-- The helper `dataAccess` of 40_host_interface.md is the rule R76 (a) as ranges. -/
theorem dataAccess_iff (o n : Nat) : dataAccess o n = true ↔ LegalData o n := by
  unfold dataAccess LegalData BytesInOneRegion
  simp only [Bool.and_eq_true, decide_eq_true_eq, allIn_iff, legalSize, Bool.or_eq_true, Config.windowBytes,
    or_assoc]
  refine and_congr_right fun hn => ?_
  have hn1 : 1 ≤ n := by omega
  constructor
  · rintro ⟨h1, h2, h3⟩
    have hl := h3 (n - 1) (by omega)
    rw [show o + (n - 1) = o + n - 1 by omega] at hl
    rcases region_cases o with ⟨e, h⟩ | ⟨e, h⟩ | ⟨e, h⟩ | ⟨e, h⟩ | ⟨e, h⟩
    case' inr.inr.inr.inr => rw [e] at h2; exact absurd h2 (by simp)
    all_goals rcases region_cases (o + n - 1) with ⟨e', h'⟩ | ⟨e', h'⟩ | ⟨e', h'⟩ | ⟨e', h'⟩ | ⟨e', h'⟩
    all_goals rw [hl] at e'
    all_goals first | omega | (rw [e] at e'; simp [Region.isData] at e')
  · intro h
    have key : ∀ r lo hi, (∀ x, lo ≤ x → x < hi → region x = r) → lo ≤ o → o + n ≤ hi → r.isData = true → hi ≤ 512 →
        o + n ≤ 512 ∧ (region o).isData = true ∧ ∀ k < n, region (o + k) = region o := by
      intro r lo hi hx h1 h2 hd hh
      rw [hx o h1 (by omega)]
      exact ⟨by omega, hd, fun k hk => hx _ (by omega) (by omega)⟩
    have rest : o + n ≤ 512 ∧ (region o).isData = true ∧ ∀ k < n, region (o + k) = region o := by
      rcases h with h | h | h | h
      · exact key .u1s 0 0x14 (fun x _ h => if_pos (by omega)) (by omega) h rfl (by omega)
      · refine key .u1b 0x40 0x80 (fun x h h' => ?_) h.1 h.2 rfl (by omega)
        rw [region, if_neg (by omega), if_pos (by omega)]
      · refine key .u2s 0x80 0xA0 (fun x h h' => ?_) h.1 h.2 rfl (by omega)
        rw [region, if_neg (by omega), if_neg (by omega), if_pos (by omega)]
      · refine key .u2b 0xC0 0x100 (fun x h h' => ?_) h.1 h.2 rfl (by omega)
        rw [region, if_neg (by omega), if_neg (by omega), if_neg (by omega), if_pos (by omega)]
    exact ⟨decide_eq_true rest.1, rest.2⟩

theorem ctrlAccess_iff (o n : Nat) :
    ctrlAccess o n = true ↔ n = 4 ∧ (o = 0x100 ∨ o = 0x104 ∨ o = 0x108) := by
  simp only [ctrlAccess, Bool.and_eq_true, Bool.or_eq_true, decide_eq_true_eq, or_assoc]
  exact Iff.rfl

theorem localLegal_iff (u : UnitId) (o n : Nat) :
    localLegal u o n = true ↔ o + n ≤ stateBytes u ∨ (0x040 ≤ o ∧ o + n ≤ 0x080) := by
  simp only [localLegal, Bool.and_eq_true, Bool.or_eq_true, decide_eq_true_eq]
  exact Iff.rfl

/-- Bytes a unit may name are bytes of one data region of the window (R75, R77). -/
theorem localLegal_region {u : UnitId} {o n : Nat} (h : localLegal u o n = true) :
    BytesInOneRegion (unitBase u + o) n := by
  rw [localLegal_iff] at h
  unfold BytesInOneRegion
  cases u <;> simp only [unitBase, stateBytes] at * <;> omega

end Sys2Proof.Machine
end

