-- ==== Sys2Proof/Machine/Assembler.lean ====
section
/-! DEFINITION. The assembler syntax of micro-operations (R119), as the spec's listings print it, and the mnemonics of
R101 and R114. -/

namespace Sys2Proof.Machine

/-- The mnemonic of an instruction (R101, R114). -/
def mnemonic : Instr → String
  | .nop => "NOP"
  | .sha1Compress => "SHA1_COMPRESS"
  | .sha256Compress => "SHA256_COMPRESS"
  | .endOp => "END"
  | .vld _ _ => "VLD"
  | .vst _ _ => "VST"
  | .sld _ _ => "SLD"
  | .sst _ _ => "SST"
  | .vmov _ _ => "VMOV"
  | .smov _ _ => "SMOV"
  | .sgetl _ _ _ => "SGETL"
  | .vrev32 _ _ => "VREV32"
  | .vadd _ _ _ => "VADD"
  | .sadd _ _ _ => "SADD"
  | .vdupk _ _ => "VDUPK"
  | .vldk _ _ => "VLDK"
  | .sha1c _ _ _ => "SHA1C"
  | .sha1p _ _ _ => "SHA1P"
  | .sha1m _ _ _ => "SHA1M"
  | .sha1h _ _ => "SHA1H"
  | .sha1su0 _ _ _ => "SHA1SU0"
  | .sha1su1 _ _ => "SHA1SU1"
  | .sha256h _ _ _ => "SHA256H"
  | .sha256h2 _ _ _ => "SHA256H2"
  | .sha256su0 _ _ => "SHA256SU0"
  | .sha256su1 _ _ _ => "SHA256SU1"

/-- `V0` to `V15` (R119). -/
def asmV (r : Reg) : String := "V" ++ toString r.val

/-- `S0` to `S15` (R119). -/
def asmS (r : Reg) : String := "S" ++ toString r.val

/-- One hexadecimal digit. -/
def hexDigit (n : Nat) : String :=
  match n % 16 with
  | 10 => "A" | 11 => "B" | 12 => "C" | 13 => "D" | 14 => "E" | 15 => "F"
  | k => toString k

/-- A unit-local offset, `[imm]` in hexadecimal (R119): two digits, three if it needs them. -/
def asmOff (imm : BitVec 12) : String :=
  let n := imm.toNat
  "[0x" ++ (if n < 0x100 then "" else hexDigit (n / 256)) ++ hexDigit (n / 16) ++ hexDigit n ++ "]"

/-- A lane or constant index, `#imm` (R119). -/
def asmIdx (n : Nat) : String := "#" ++ toString n

/-- The operands in assembler order (R114, R119): the destination first, a store's memory destination included. -/
def operands : Instr → List String
  | .nop | .sha1Compress | .sha256Compress | .endOp => []
  | .vld d imm => [asmV d, asmOff imm]
  | .vst imm n => [asmOff imm, asmV n]
  | .sld d imm => [asmS d, asmOff imm]
  | .sst imm n => [asmOff imm, asmS n]
  | .vmov d n | .vrev32 d n | .sha1su1 d n | .sha256su0 d n => [asmV d, asmV n]
  | .smov d n | .sha1h d n => [asmS d, asmS n]
  | .sgetl d n lane => [asmS d, asmV n, asmIdx lane.val]
  | .vadd d n m | .sha1su0 d n m | .sha256h d n m | .sha256h2 d n m | .sha256su1 d n m => [asmV d, asmV n, asmV m]
  | .sadd d n m => [asmS d, asmS n, asmS m]
  | .vdupk d k => [asmV d, asmIdx k.val]
  | .vldk d g => [asmV d, asmIdx g.val]
  | .sha1c d n m | .sha1p d n m | .sha1m d n m => [asmV d, asmS n, asmV m]

/-- `MNEMONIC operands`, operands separated by commas (R119). -/
def asm (i : Instr) : String :=
  match operands i with
  | [] => mnemonic i
  | ops => mnemonic i ++ " " ++ String.intercalate ", " ops

end Sys2Proof.Machine
end

