-- ==== Sys2Proof/Machine/Script.lean ====
section
/-! DEFINITION. The host's side of the interface as the spec writes it down: the script syntax of R120 as lists of bus
transactions, and the digest serialisation of R153. The block does none of this. -/

namespace Sys2Proof.Machine.Script

/-- `WR<8n> off, value`: a host write of `n` bytes (R120). -/
def wr (n : Nat) (off : Nat) (value : BitVec 128) : Transaction := .write (BitVec.ofNat 9 off) n value

/-- `RD<8n> off`: a host read of `n` bytes (R120). -/
def rd (n : Nat) (off : Nat) : Transaction := .read (BitVec.ofNat 9 off) n

/-- `CMD w` (R120). -/
def cmd (w : Word) : List Transaction := [wr 4 0x100 (w.setWidth 128)]

/-- Words written with WR32 from `off` upwards. -/
def wrWords (off : Nat) : List Word → List Transaction
  | [] => []
  | w :: ws => wr 4 off (w.setWidth 128) :: wrWords (off + 4) ws

/-- `count` words read with RD32 from `off` upwards. -/
def rdWords (off : Nat) : Nat → List Transaction
  | 0 => []
  | count + 1 => rd 4 off :: rdWords (off + 4) count

/-- `WRSTATE1 w0, ..., w4` (R120). -/
def wrState1 (ws : List Word) : List Transaction := wrWords 0x000 ws

/-- `WRSTATE2 w0, ..., w7` (R120). -/
def wrState2 (ws : List Word) : List Transaction := wrWords 0x080 ws

/-- `RDSTATE1` (R120). -/
def rdState1 : List Transaction := rdWords 0x000 5

/-- `RDSTATE2` (R120). -/
def rdState2 : List Transaction := rdWords 0x080 8

/-- A 64-byte block written as four WR128, first byte first (R120). -/
def wrBlock (off : Nat) (bytes : List Byte) : List Transaction :=
  [wr 16 off (leValue 128 (bytes.take 16)), wr 16 (off + 16) (leValue 128 ((bytes.drop 16).take 16)),
   wr 16 (off + 32) (leValue 128 ((bytes.drop 32).take 16)), wr 16 (off + 48) (leValue 128 ((bytes.drop 48).take 16))]

/-- `WRBLOCK1` (R120). -/
def wrBlock1 (bytes : List Byte) : List Transaction := wrBlock 0x040 bytes

/-- `WRBLOCK2` (R120). -/
def wrBlock2 (bytes : List Byte) : List Transaction := wrBlock 0x0C0 bytes

/-- `CLRERR` (R120). -/
def clrErr : List Transaction := [wr 4 0x104 1]

/-- The digest of a final state: its words big-endian, word 0 first (R153). A truncated variant keeps a front part. -/
def digest (ws : List Word) : List Byte := ws.flatMap fun w => (leBytes w 4).reverse

end Sys2Proof.Machine.Script
end

