-- ==== Sys2Proof/Tests/Slice0.lean ====
section
/-! SUPPORT. The model's own tests. Expected values are those of spec/95_test_vectors.md (the section stands beside each
group) or were worked by hand from the rule named. The last part holds, for every obligation with hypotheses, a theorem
`witness_<its name>`: a concrete state and operands that meet all of them together. -/

namespace Sys2Proof.Tests

open Sys2Proof Sys2Proof.Machine

/-! ### Helpers: small states and what is looked at in an outcome -/

/-- `n` cells from `a`, byte `k` holding `k`. -/
def cells (a n : Nat) : Memory := (List.range n).map fun k => (a + k, BitVec.ofNat 8 k)

/-- All four data regions written. -/
def fullMem : Memory := cells 0x000 20 ++ (cells 0x040 64 ++ (cells 0x080 32 ++ cells 0x0C0 64))

/-- A unit with the listed registers written. -/
def unitWith (vs : List (Reg × Vec)) (ss : List (Reg × Word)) : UnitState :=
  ss.foldl (fun t p => t.setS p.1 p.2) (vs.foldl (fun t p => t.setV p.1 p.2) UnitState.reset)

/-- Unit `u` executes with the listed registers written; no byte is written. -/
def running (u : UnitId) (vs : List (Reg × Vec)) (ss : List (Reg × Word)) : State :=
  { State.reset.setUnit u (unitWith vs ss) with running := some u }

/-- Unit `u` executes, with registers 0 to 2 of both files and every data byte written. -/
def busy (u : UnitId) : State :=
  { running u [(0, ⟨1, 2, 3, 4⟩), (1, ⟨5, 6, 7, 8⟩), (2, ⟨9, 10, 11, 12⟩)] [(0, 13), (1, 14), (2, 15)] with mem := fullMem }

/-- Every data byte written and one access pending. -/
def serving (t : Transaction) : State := { State.reset with mem := fullMem, pending := [t] }

def vreg (u : UnitId) (r : Reg) : Out → Option Vec
  | .next t => if (t.unit u).vWritten[r] then some (t.unit u).v[r] else none
  | _ => none

def sreg (u : UnitId) (r : Reg) : Out → Option Word
  | .next t => if (t.unit u).sWritten[r] then some (t.unit u).s[r] else none
  | _ => none

/-- The `n` bytes at `a`, none if one is unwritten. -/
def bytes (a n : Nat) : Out → Option (List Byte)
  | .next t => (t.mem.load a n).toOption
  | _ => none

def faultOf : Out → Option Fault
  | .fault f => some f
  | _ => none

def refusalOf : Out → Option Refusal
  | .refused r => some r
  | _ => none

def stateOf : Out → Option State
  | .next t => some t
  | _ => none

/-- CMD_ERR and the responses. -/
def answer : Out → Option (Bool × List Response)
  | .next t => some (t.cmdErr, t.responses)
  | _ => none

/-! ### WellFormed: each check refuses an ill-formed term -/

theorem test_wf_command_in_rom : Instr.sha1Compress.wellFormed (.rom .u1) = false := by decide
theorem test_wf_microop_in_cmd : (Instr.vmov 0 1).wellFormed .cmd = false := by decide
theorem test_wf_sha1_on_u2 : (Instr.sha1c 0 0 2).wellFormed (.rom .u2) = false := by decide
theorem test_wf_sha256_on_u1 : (Instr.vldk 8 15).wellFormed (.rom .u1) = false := by decide
theorem test_wf_vld_leaves_state : (Instr.vld 0 0x10).wellFormed (.rom .u1) = false := by decide
theorem test_wf_vst_leaves_window : (Instr.vst 0x71 0).wellFormed (.rom .u2) = false := by decide
theorem test_wf_sld_leaves_state : (Instr.sld 0 0x1C).wellFormed (.rom .u1) = false := by decide
theorem test_wf_sst_in_gap : (Instr.sst 0x20 0).wellFormed (.rom .u2) = false := by decide
theorem test_wf_edges : (Instr.vld 0 0x04).wellFormed (.rom .u1) = true ∧ (Instr.vld 0 0x10).wellFormed (.rom .u2) = true ∧
    (Instr.vst 0x70 0).wellFormed (.rom .u1) = true ∧ (Instr.sst 0x10 0).wellFormed (.rom .u1) = true := by decide

/-! ### Decoding: words written out from R101, R110, R111, R114: UOP D N M IMM -/

theorem test_decode_commands : decode .cmd 0 = .ok .nop ∧ decode .cmd 1 = .ok .sha1Compress ∧
    decode .cmd 2 = .ok .sha256Compress ∧ decode .cmd 3 = .error .illegalCommand ∧
    decode .cmd 0x10 = .error .illegalCommand := by decide
theorem test_decode_end : decode (.rom .u1) 0b00000000000000000000000000000000 = .ok .endOp := by decide
theorem test_decode_vld : decode (.rom .u1) 0b00000001010000000000000001000000 = .ok (.vld 4 0x40) := by decide
theorem test_decode_vst : decode (.rom .u2) 0b00000010000010000000000000010000 = .ok (.vst 0x10 8) := by decide
theorem test_decode_sld : decode (.rom .u2) 0b00000011000000000000000000011100 = .ok (.sld 0 0x1C) := by decide
theorem test_decode_sst : decode (.rom .u1) 0b00000100000000110000000000010000 = .ok (.sst 0x10 3) := by decide
theorem test_decode_vmov : decode (.rom .u2) 0b00000101000000010000000000000000 = .ok (.vmov 0 1) := by decide
theorem test_decode_smov : decode (.rom .u1) 0b00000110000100100000000000000000 = .ok (.smov 1 2) := by decide
theorem test_decode_sgetl : decode (.rom .u1) 0b00000111001000000000000000000011 = .ok (.sgetl 2 0 3) := by decide
theorem test_decode_vrev32 : decode (.rom .u1) 0b00001000010001010000000000000000 = .ok (.vrev32 4 5) := by decide
theorem test_decode_vadd : decode (.rom .u1) 0b00001001001001000010000000000000 = .ok (.vadd 2 4 2) := by decide
theorem test_decode_sadd : decode (.rom .u2) 0b00001010000000010010000000000000 = .ok (.sadd 0 1 2) := by decide
theorem test_decode_vdupk : decode (.rom .u1) 0b00001011001000000000000000000011 = .ok (.vdupk 2 3) := by decide
theorem test_decode_vldk : decode (.rom .u2) 0b00001100100000000000000000001111 = .ok (.vldk 8 15) := by decide
theorem test_decode_sha1c : decode (.rom .u1) 0b00010000000000010010000000000000 = .ok (.sha1c 0 1 2) := by decide
theorem test_decode_sha1p : decode (.rom .u1) 0b00010001000000010010000000000000 = .ok (.sha1p 0 1 2) := by decide
theorem test_decode_sha1m : decode (.rom .u1) 0b00010010000000010010000000000000 = .ok (.sha1m 0 1 2) := by decide
theorem test_decode_sha1h : decode (.rom .u1) 0b00010011001100100000000000000000 = .ok (.sha1h 3 2) := by decide
theorem test_decode_sha1su0 : decode (.rom .u1) 0b00010100010001010110000000000000 = .ok (.sha1su0 4 5 6) := by decide
theorem test_decode_sha1su1 : decode (.rom .u1) 0b00010101010001110000000000000000 = .ok (.sha1su1 4 7) := by decide
theorem test_decode_sha256h : decode (.rom .u2) 0b00100000000000011000000000000000 = .ok (.sha256h 0 1 8) := by decide
theorem test_decode_sha256h2 : decode (.rom .u2) 0b00100001001110011000000000000000 = .ok (.sha256h2 3 9 8) := by decide
theorem test_decode_sha256su0 : decode (.rom .u2) 0b00100010010001010000000000000000 = .ok (.sha256su0 4 5) := by decide
theorem test_decode_sha256su1 : decode (.rom .u2) 0b00100011010001100111000000000000 = .ok (.sha256su1 4 6 7) := by decide

/-- Reserved words of section 2.8, one for each clause of R116. -/
theorem test_decode_reserved : decode (.rom .u1) 0x0D000000 = .error .unknownUop ∧
    decode (.rom .u1) 0x01410040 = .error .nonzeroField ∧ decode (.rom .u1) 0x10002001 = .error .nonzeroField ∧
    decode (.rom .u2) 0x05010001 = .error .nonzeroField ∧ decode (.rom .u1) 0x00000001 = .error .nonzeroField ∧
    decode (.rom .u1) 0x07200004 = .error .immOutOfRange ∧ decode (.rom .u2) 0x0C800010 = .error .immOutOfRange ∧
    decode (.rom .u1) 0x0300001C = .error .offsetOutsideRegion ∧
    decode (.rom .u2) 0x01000071 = .error .offsetOutsideRegion ∧ decode (.rom .u2) 0x0B200003 = .error .otherUnit := by
  decide

theorem test_decodeTableWord : decodeTableWord 32 0 = some .nop ∧ decodeTableWord 32 0x20000000 = some (.sha256h 0 0 0) ∧
    decodeTableWord 32 0x01000000 = some (.vld 0 0) ∧ decodeTableWord 32 0xFF000000 = none := by decide

/-- The listings' text is the assembler syntax of R119. -/
theorem test_asm : asm (.sha256h2 3 9 8) = "SHA256H2 V3, V9, V8" ∧ asm (.sst 0x10 0) = "SST [0x10], S0" ∧
    asm (.sgetl 2 0 3) = "SGETL S2, V0, #3" := by decide

/-- The lengths of R12. -/
theorem test_rom_lengths : Rom.u1.length = Config.sha1UprogLen ∧ Rom.u2.length = Config.sha256UprogLen ∧
    k256Table.length = Config.sha256Rounds := by decide +kernel

/-! ### Commands (section 2.2) -/

theorem test_nop : answer (step (serving (.write 0x100 4 0))) = some (false, [.okay]) := by decide
theorem test_illegal_command :
    answer (step (serving (.write 0x100 4 0x80000001))) = some (true, [.okay]) ∧
    answer (step (serving (.write 0x100 4 3))) = some (true, [.okay]) := by decide
theorem test_sha1Compress_unwritten :
    faultOf (step { State.reset with pending := [.write 0x100 4 1] }) = some (.uninit (.window 0x000)) ∧
    faultOf (step { State.reset with mem := cells 0x000 20, pending := [.write 0x100 4 1] }) =
      some (.uninit (.window 0x040)) := by decide
theorem test_sha1Compress_starts : ((stateOf (step (serving (.write 0x100 4 1)))).map fun t => (t.running, t.responses)) =
    some (some .u1, []) := by decide
theorem test_sha256Compress_starts : ((stateOf (step (serving (.write 0x100 4 2)))).map fun t => (t.running, t.responses)) =
    some (some .u2, []) := by decide +kernel
theorem test_command_needs_four_bytes :
    answer (step (serving (.write 0x100 8 1))) = some (false, [.busErr]) ∧
    answer (step (serving (.write 0x100 2 1))) = some (false, [.busErr]) := by decide
theorem test_end : ((stateOf (exec .endOp (busy .u2))).map fun t => (t.running, t.responses)) = some (none, [.okay]) := by
  decide
theorem test_end_upc : ((stateOf (exec .endOp { busy .u1 with u1 := { (busy .u1).u1 with upc := 148 } })).map
    fun t => t.u1.upc) = some 0 := by decide

/-! ### Common micro-operations (section 2.3) -/

theorem test_vld : vreg .u1 4 (exec (.vld 4 0x40) (busy .u1)) =
    some ⟨0x03020100, 0x07060504, 0x0B0A0908, 0x0F0E0D0C⟩ := by decide
theorem test_vld_unwritten : faultOf (exec (.vld 4 0x04) { running .u1 [] [] with mem := cells 0 16 }) =
    some (.uninit (.window 0x10)) := by decide
theorem test_vst : bytes 0x80 16 (exec (.vst 0x00 0)
      (running .u2 [(0, ⟨0x11111111, 0x22222222, 0x33333333, 0x44444456⟩)] [])) =
    some [0x11, 0x11, 0x11, 0x11, 0x22, 0x22, 0x22, 0x22, 0x33, 0x33, 0x33, 0x33, 0x56, 0x44, 0x44, 0x44] := by decide
theorem test_sld : sreg .u2 0 (exec (.sld 0 0x1C) (busy .u2)) = some 0x1F1E1D1C := by decide
theorem test_sst : bytes 0x10 4 (exec (.sst 0x10 0) (running .u1 [] [(0, 0x9CD0D89D)])) =
    some [0x9D, 0xD8, 0xD0, 0x9C] := by decide
theorem test_vmov : vreg .u1 3 (exec (.vmov 3 0) (busy .u1)) = some ⟨1, 2, 3, 4⟩ := by decide
theorem test_smov : sreg .u2 3 (exec (.smov 3 1) (busy .u2)) = some 14 := by decide
theorem test_vrev32 : vreg .u1 5 (exec (.vrev32 5 5)
      (running .u1 [(5, ⟨0x12345678, 0, 0xFFFFFFFF, 0x03020100⟩)] [])) =
    some ⟨0x78563412, 0, 0xFFFFFFFF, 0x00010203⟩ := by decide
theorem test_sgetl : sreg .u1 2 (exec (.sgetl 2 0 0) (busy .u1)) = some 1 ∧
    sreg .u1 2 (exec (.sgetl 2 0 3) (busy .u1)) = some 4 := by decide
theorem test_vadd_no_carry : vreg .u1 0 (exec (.vadd 0 1 2)
      (running .u1 [(1, ⟨0xFFFFFFFF, 1, 0x80000000, 0⟩), (2, ⟨1, 0xFFFFFFFF, 0x80000000, 0⟩)] [])) =
    some ⟨0, 0, 0, 0⟩ := by decide
theorem test_vadd_unwritten : faultOf (exec (.vadd 1 8 9) (running .u2 [(8, ⟨0, 0, 0, 0⟩)] [])) =
    some (.uninit (.vreg .u2 9)) := by decide
theorem test_sadd : sreg .u1 0 (exec (.sadd 0 0 1) (running .u1 [] [(0, 0xD9D6E14C), (1, 0xC3D2E1F0)])) =
    some 0x9DA9C33C := by decide
theorem test_vdupk : vreg .u1 2 (exec (.vdupk 2 2) (busy .u1)) =
    some ⟨0x8F1BBCDC, 0x8F1BBCDC, 0x8F1BBCDC, 0x8F1BBCDC⟩ := by decide
theorem test_vldk : vreg .u2 8 (exec (.vldk 8 15) (busy .u2)) =
    some ⟨0x90BEFFFA, 0xA4506CEB, 0xBEF9A3F7, 0xC67178F2⟩ := by decide
theorem test_upc_advances : ((stateOf (exec (.smov 3 1) (busy .u2))).map fun t => (t.u2.upc, t.u1.upc)) = some (1, 0) := by
  decide
theorem test_wrong_unit : refusalOf (exec (.sha1h 0 0) (busy .u2)) = some (.reserved .u2 0) := by decide
theorem test_outside_command : refusalOf (exec (.vmov 0 0) State.reset) = some .noCommandInProgress := by decide

/-! ### SHA-1 micro-operations (section 2.4) -/

def ivAbcd : Vec := ⟨0x67452301, 0xEFCDAB89, 0x98BADCFE, 0x10325476⟩

def sha1Start : State := running .u1 [(0, ivAbcd), (2, Vec.zero)] [(0, 0xC3D2E1F0)]

theorem test_sha1c : vreg .u1 0 (exec (.sha1c 0 0 2) sha1Start) =
    some ⟨0xB0186832, 0x62D31D74, 0x2C9C8DAF, 0x914C87C6⟩ := by decide
theorem test_sha1p : vreg .u1 0 (exec (.sha1p 0 0 2) sha1Start) =
    some ⟨0x0C42A35C, 0x43CACADE, 0x42F2E34D, 0x44EF1947⟩ := by decide
theorem test_sha1m : vreg .u1 0 (exec (.sha1m 0 0 2) sha1Start) =
    some ⟨0x898C6669, 0x3FE27BC6, 0x0C9A68A8, 0x914C87C6⟩ := by decide
theorem test_sha1p_lanes : vreg .u1 0 (exec (.sha1p 0 0 2) (running .u1 [(0, Vec.zero), (2, ⟨1, 2, 3, 4⟩)] [(0, 0)])) =
    some ⟨0x400088A6, 0x00000444, 0x80000008, 0x40000000⟩ := by decide
theorem test_sha1h : sreg .u1 3 (exec (.sha1h 3 0) (running .u1 [] [(0, 0x67452301)])) = some 0x59D148C0 := by decide
theorem test_sha1su0 : vreg .u1 4 (exec (.sha1su0 4 5 6)
      (running .u1 [(4, ⟨1, 2, 4, 8⟩), (5, ⟨0x10, 0x20, 0x40, 0x80⟩), (6, ⟨0x100, 0x200, 0x400, 0x800⟩)] [])) =
    some ⟨0x105, 0x20A, 0x414, 0x828⟩ := by decide
theorem test_sha1su0_same : vreg .u1 4 (exec (.sha1su0 4 4 4) (running .u1 [(4, ⟨1, 2, 3, 4⟩)] [])) =
    some ⟨3, 4, 1, 2⟩ := by decide
theorem test_sha1su1 : vreg .u1 4 (exec (.sha1su1 4 5)
      (running .u1 [(4, ⟨1, 2, 4, 8⟩), (5, ⟨0x10, 0x20, 0x40, 0x80⟩)] [])) = some ⟨0x42, 0x84, 0x108, 0x94⟩ := by decide

/-! ### SHA-256 micro-operations (section 2.5) -/

def sha256Start : State :=
  running .u2 [(0, ⟨0x6A09E667, 0xBB67AE85, 0x3C6EF372, 0xA54FF53A⟩), (1, ⟨0x510E527F, 0x9B05688C, 0x1F83D9AB, 0x5BE0CD19⟩),
    (8, ⟨0x428A2F98, 0x71374491, 0xB5C0FBCF, 0xE9B5DBA5⟩)] []

theorem test_sha256h : vreg .u2 0 (exec (.sha256h 0 1 8) sha256Start) =
    some ⟨0x0A24B1AA, 0xF3DD6C3F, 0x7AD96290, 0xFC08884D⟩ := by decide
theorem test_sha256h2 : vreg .u2 1 (exec (.sha256h2 1 0 8) sha256Start) =
    some ⟨0x909CF5C9, 0xC57B68FB, 0x9DF1B216, 0x98C7E2A2⟩ := by decide
theorem test_sha256su0 : vreg .u2 4 (exec (.sha256su0 4 5) (running .u2 [(4, ⟨1, 2, 3, 4⟩), (5, ⟨5, 6, 7, 8⟩)] [])) =
    some ⟨0x04008001, 0x0600C002, 0x08010003, 0x0A014004⟩ := by decide
theorem test_sha256su1 : vreg .u2 4 (exec (.sha256su1 4 5 6)
      (running .u2 [(4, ⟨1, 2, 3, 4⟩), (5, ⟨5, 6, 7, 8⟩), (6, ⟨9, 10, 11, 12⟩)] [])) =
    some ⟨0x0004E007, 0x00078009, 0xEC036145, 0x3005A1F0⟩ := by decide

/-! ### Host accesses (section 2.1) -/

theorem test_read_little_endian : answer (step (serving (.read 0x000 16))) =
    some (false, [.okayData 16 0x0F0E0D0C0B0A09080706050403020100]) := by decide
theorem test_read_unaligned : answer (step (serving (.read 0x012 2))) = some (false, [.okayData 2 0x1312]) := by decide
theorem test_read_leaves_region : answer (step (serving (.read 0x012 4))) = some (false, [.busErr]) := by decide
theorem test_read_size : answer (step (serving (.read 0x000 3))) = some (false, [.busErr]) := by decide
theorem test_read_unwritten : faultOf (step { State.reset with pending := [.read 0x040 4] }) =
    some (.uninit (.window 0x040)) := by decide
theorem test_write_crosses_units : answer (step (serving (.write 0x071 16 0))) = some (false, [.busErr]) := by decide
theorem test_write_mixed_width : bytes 0x040 4 (step { State.reset with pending := [.write 0x040 4 0x11223344] }) =
    some [0x44, 0x33, 0x22, 0x11] := by decide
theorem test_caps : answer (step (serving (.read 0x108 4))) = some (false, [.okayData 4 3]) ∧
    answer (step (serving (.write 0x108 4 3))) = some (false, [.busErr]) := by decide
theorem test_status_write : answer (step { serving (.write 0x104 4 0xFFFFFFFE) with cmdErr := true }) = some (true, [.okay]) ∧
    answer (step { serving (.write 0x104 4 0xFFFFFFFF) with cmdErr := true }) = some (false, [.okay]) := by decide
theorem test_memory_canonical : Memory.put (Memory.put (Memory.put [] 5 1) 3 2) 5 9 = [(3, 2), (5, 9)] ∧ fullMem.wf = true := by
  decide
theorem test_script : Script.wrBlock1 ([0x61, 0x62, 0x63, 0x80] ++ List.replicate 59 0 ++ [0x18]) =
    [.write 0x040 16 0x80636261, .write 0x050 16 0, .write 0x060 16 0,
     .write 0x070 16 0x18000000000000000000000000000000] := by decide
theorem test_digest : Script.digest [0xA9993E36, 0x47] = [0xA9, 0x99, 0x3E, 0x36, 0, 0, 0, 0x47] := by decide

/-! ### Reset, and the host's probe -/

theorem test_reset_in_command : ((stateOf (step { busy .u1 with resetLine := [true] })).map
    fun t => (t.running, t.mem, t.responses)) = some (none, [], []) := by decide
theorem test_withFetchWord_command : answer (step (State.reset.withFetchWord 32 0)) = some (false, [.okay]) := by decide
theorem test_withFetchWord_microop : vreg .u2 8 (step (State.reset.withFetchWord 32 0x0C80000F)) =
    some ⟨0x90BEFFFA, 0xA4506CEB, 0xBEF9A3F7, 0xC67178F2⟩ := by decide
/-- END's word is NOP's, so the table word cannot name it; placed in a ROM it runs as END (notes/assumptions/1.md). -/
theorem test_placeWord_end : ((stateOf (step (State.reset.placeWord (.rom .u1) 0))).map fun t => (t.running, t.responses)) =
    some (none, [.okay]) := by decide
theorem test_fetch_past_rom : refusalOf (step { busy .u1 with rom1 := [] }) = some (.noRomWord .u1 0) := by decide

/-! ### The reference functions (section 2.6) -/

def blockAbc : List Byte := [0x61, 0x62, 0x63, 0x80] ++ List.replicate 59 0 ++ [0x18]

theorem test_sha1CompressFn :
    sha1CompressFn ⟨0x67452301, 0xEFCDAB89, 0x98BADCFE, 0x10325476, 0xC3D2E1F0⟩ blockAbc =
      ⟨0xA9993E36, 0x4706816A, 0xBA3E2571, 0x7850C26C, 0x9CD0D89D⟩ := by decide +kernel

theorem test_sha256CompressFn :
    sha256CompressFn ⟨0x6A09E667, 0xBB67AE85, 0x3C6EF372, 0xA54FF53A, 0x510E527F, 0x9B05688C, 0x1F83D9AB, 0x5BE0CD19⟩
        blockAbc =
      ⟨0xBA7816BF, 0x8F01CFEA, 0x414140DE, 0x5DAE2223, 0xB00361A3, 0x96177A9C, 0xB410FF61, 0xF20015AD⟩ := by
  decide +kernel

/-! ### Witnesses: the hypotheses of the obligations can be met -/

/-- Every data byte is written in `fullMem`. -/
theorem fullMem_inputs (s : State) (h : s.mem = fullMem) (u : UnitId) : s.InputsWritten u := by
  refine (checkInputs_ok_iff s u).mp ?_
  simp only [State.checkInputs, State.loadBytes, h]
  cases u <;> decide +kernel

theorem witness_DecodeUndoesEncode : (Instr.vst 0x10 15).wellFormed (.rom .u2) = true ∧
    (Instr.vst 0x70 0).wellFormed (.rom .u1) = true ∧ Instr.sha1Compress.wellFormed .cmd = true := by decide

theorem witness_DecodedWordIsTheEncoding : decode (.rom .u1) 0x04030010 = .ok (.sst 0x10 3) ∧
    decode .cmd 2 = .ok .sha256Compress := by decide

theorem witness_StepRunsTheFetchedMicroOp : (busy .u1).NoReset ∧ (busy .u1).running = some .u1 ∧
    ((busy .u1).rom .u1)[((busy .u1).unit .u1).upc.toNat]? = some 0x01000000 ∧
    decode (.rom .u1) 0x01000000 = .ok (.vld 0 0) := by
  unfold State.NoReset; decide

theorem witness_StepRunsTheWrittenCommand :
    (serving (.write 0x100 4 2)).Serves (.write 0x100 4 2) [] ∧ (0x100 : BitVec 9).toNat = 0x100 ∧
    decode .cmd ((2 : BitVec 128).setWidth 32) = .ok .sha256Compress := by
  unfold State.Serves State.NoReset; decide

theorem witness_ReservedWordIsRefused :
    let s := { busy .u1 with rom1 := [0x0D000000] }
    s.NoReset ∧ s.running = some .u1 ∧ (s.rom .u1)[(s.unit .u1).upc.toNat]? = some 0x0D000000 ∧
      decode (.rom .u1) 0x0D000000 = .error .unknownUop := by
  unfold State.NoReset; decide

theorem witness_CompressCommandStartsItsUnit : (serving (.write 0x100 4 1)).InputsWritten .u1 ∧
    (serving (.write 0x100 4 1)).InputsWritten .u2 := ⟨fullMem_inputs _ rfl _, fullMem_inputs _ rfl _⟩

/-- The first byte of STATE, and the first of BLOCK after a written STATE. -/
theorem witness_CompressCommandFaultsAtTheLowestUnwrittenByte :
    (IsInput .u1 0x000 ∧ State.reset.mem.byte? 0x000 = none ∧
      ∀ b, IsInput .u1 b → b < 0x000 → State.reset.ByteWritten b) ∧
    (IsInput .u1 0x040 ∧ ({ State.reset with mem := cells 0x000 20 }).mem.byte? 0x040 = none ∧
      ∀ b, IsInput .u1 b → b < 0x040 → ({ State.reset with mem := cells 0x000 20 }).ByteWritten b) := by
  have hw : ∀ b < 20, ({ State.reset with mem := cells 0x000 20 }).ByteWritten b := by
    unfold State.ByteWritten; decide
  refine ⟨⟨by simp [IsInput, unitBase, stateBytes], by decide, fun b _ h => absurd h (Nat.not_lt_zero b)⟩,
    by simp [IsInput, unitBase], by decide, fun b hb h => hw b ?_⟩
  simp only [IsInput, unitBase, stateBytes] at hb
  omega

theorem witness_EndCompletesTheCommand : (busy .u2).running = some .u2 := by decide

/-- All 16 bytes written, and the last of them unwritten. -/
theorem witness_VldLoadsLittleEndianLanes : (busy .u1).running = some .u1 ∧
    (Instr.vld 4 0x40).wellFormed (.rom .u1) = true ∧
    (∀ k, k < 16 → (busy .u1).mem.byte? (unitBase .u1 + (0x40 : BitVec 12).toNat + k) = some (BitVec.ofNat 8 k)) ∧
    15 < 16 ∧ ({ busy .u1 with mem := cells 0x040 15 }).mem.byte? (unitBase .u1 + (0x40 : BitVec 12).toNat + 15) = none := by
  decide

theorem witness_VstStoresLittleEndianLanes : (busy .u2).running = some .u2 ∧
    (Instr.vst 0x10 0).wellFormed (.rom .u2) = true ∧ ((busy .u2).unit .u2).vWritten[(0 : Reg)] = true := by decide

theorem witness_SldLoadsALittleEndianWord : (busy .u1).running = some .u1 ∧
    (Instr.sld 0 0x10).wellFormed (.rom .u1) = true ∧
    (∀ k, k < 4 → (busy .u1).mem.byte? (unitBase .u1 + (0x10 : BitVec 12).toNat + k) = some (BitVec.ofNat 8 (16 + k))) ∧
    0 < 4 ∧ ({ busy .u1 with mem := [] }).mem.byte? (unitBase .u1 + (0x10 : BitVec 12).toNat + 0) = none := by decide

theorem witness_SstStoresALittleEndianWord : (busy .u1).running = some .u1 ∧
    (Instr.sst 0x10 2).wellFormed (.rom .u1) = true ∧ ((busy .u1).unit .u1).sWritten[(2 : Reg)] = true := by decide

/-- Meets the hypotheses of VMOV's, VREV32's, SGETL's and VADD's statements. -/
theorem witness_VaddAddsEachLaneModulo : (busy .u1).running = some .u1 ∧
    ((busy .u1).unit .u1).vWritten[(1 : Reg)] = true ∧ ((busy .u1).unit .u1).vWritten[(2 : Reg)] = true := by decide
theorem witness_VmovCopiesTheVector : (busy .u2).running = some .u2 ∧
    ((busy .u2).unit .u2).vWritten[(1 : Reg)] = true := by decide
theorem witness_Vrev32SwapsTheBytesOfEachLane : (busy .u1).running = some .u1 ∧
    ((busy .u1).unit .u1).vWritten[(2 : Reg)] = true ∧
    lane ((busy .u1).unit .u1).v[(2 : Reg)] 3 = (0 : Byte) ++ (0 : Byte) ++ (0 : Byte) ++ (12 : Byte) := by decide
theorem witness_SgetlExtractsTheLane : (busy .u2).running = some .u2 ∧
    ((busy .u2).unit .u2).vWritten[(0 : Reg)] = true := by decide

/-- Meets the hypotheses of SMOV's and SADD's statements. -/
theorem witness_SaddAddsModulo : (busy .u1).running = some .u1 ∧
    ((busy .u1).unit .u1).sWritten[(1 : Reg)] = true ∧ ((busy .u1).unit .u1).sWritten[(2 : Reg)] = true := by decide
theorem witness_SmovCopiesTheScalar : (busy .u2).running = some .u2 ∧
    ((busy .u2).unit .u2).sWritten[(1 : Reg)] = true := by decide

theorem witness_VdupkBroadcastsTheConstant : (busy .u1).running = some .u1 := by decide
theorem witness_VldkLoadsFourConstants : (busy .u2).running = some .u2 := by decide

/-- The hypotheses are those of all three operations. -/
theorem witness_Sha1RoundOpsAreFourRounds : (busy .u1).running = some .u1 ∧ (busy .u1).u1.vWritten[(0 : Reg)] = true ∧
    (busy .u1).u1.sWritten[(1 : Reg)] = true ∧ (busy .u1).u1.vWritten[(2 : Reg)] = true := by decide
theorem witness_Sha1hRotatesLeftByThirty : (busy .u1).running = some .u1 ∧
    (busy .u1).u1.sWritten[(2 : Reg)] = true := by decide
theorem witness_Sha1su0XorsThreeWords : (busy .u1).running = some .u1 ∧ (busy .u1).u1.vWritten[(0 : Reg)] = true ∧
    (busy .u1).u1.vWritten[(1 : Reg)] = true ∧ (busy .u1).u1.vWritten[(2 : Reg)] = true := by decide
theorem witness_Sha1su1FinishesTheSchedule : (busy .u1).running = some .u1 ∧
    (busy .u1).u1.vWritten[(0 : Reg)] = true ∧ (busy .u1).u1.vWritten[(1 : Reg)] = true := by decide

/-- Meets the hypotheses of SHA256H's, SHA256H2's and SHA256SU1's statements. -/
theorem witness_Sha256hIsTheAbcdHalf : (busy .u2).running = some .u2 ∧ (busy .u2).u2.vWritten[(0 : Reg)] = true ∧
    (busy .u2).u2.vWritten[(1 : Reg)] = true ∧ (busy .u2).u2.vWritten[(2 : Reg)] = true := by decide
theorem witness_Sha256h2IsTheEfghHalf : (busy .u2).running = some .u2 ∧ (busy .u2).u2.vWritten[(2 : Reg)] = true ∧
    (busy .u2).u2.vWritten[(0 : Reg)] = true ∧ (busy .u2).u2.vWritten[(1 : Reg)] = true := by decide
theorem witness_Sha256su0AddsSigmaZero : (busy .u2).running = some .u2 ∧
    (busy .u2).u2.vWritten[(0 : Reg)] = true ∧ (busy .u2).u2.vWritten[(1 : Reg)] = true := by decide
theorem witness_Sha256su1FinishesTheSchedule : (busy .u2).running = some .u2 ∧
    (busy .u2).u2.vWritten[(1 : Reg)] = true ∧ (busy .u2).u2.vWritten[(2 : Reg)] = true ∧
    (busy .u2).u2.vWritten[(0 : Reg)] = true := by decide

/-- Both clauses: VADD with its sources written, and with `V9` unwritten. -/
theorem witness_MicroOpRunsExactlyWhenItsSourcesAreWritten : (busy .u1).running = some .u1 ∧
    (Instr.vadd 0 1 2).wellFormed (.rom .u1) = true ∧ (busy .u1).SourcesWritten .u1 (.vadd 0 1 2) ∧
    (Instr.vadd 0 1 9).wellFormed (.rom .u1) = true ∧ ¬ (busy .u1).SourcesWritten .u1 (.vadd 0 1 9) := by
  refine ⟨by decide, by decide, ⟨by decide, by decide, ?_⟩, by decide, fun h => ?_⟩
  · intro o n h; simp [loads] at h
  · exact absurd (h.1 9 (by decide)) (by decide)

/-- The last legal bytes of each data region. -/
theorem witness_HostReadReturnsTheBytes :
    ((serving (.read 0x004 16)).Serves (.read 0x004 16) [] ∧ LegalData (0x004 : BitVec 9).toNat 16 ∧
      ∀ k, k < 16 → (serving (.read 0x004 16)).mem.byte? ((0x004 : BitVec 9).toNat + k) =
        some (BitVec.ofNat 8 (4 + k))) ∧
    LegalData (0x070 : BitVec 9).toNat 16 ∧ LegalData (0x09F : BitVec 9).toNat 1 ∧
    LegalData (0x0F8 : BitVec 9).toNat 8 := by
  unfold State.Serves State.NoReset LegalData BytesInOneRegion; decide

theorem witness_HostReadFaultsAtTheLowestUnwrittenByte :
    let s := { State.reset with mem := cells 0x000 2, pending := [.read 0x000 4] }
    s.Serves (.read 0x000 4) [] ∧ LegalData (0x000 : BitVec 9).toNat 4 ∧ 2 < 4 ∧
      s.mem.byte? ((0x000 : BitVec 9).toNat + 2) = none ∧ ∀ j, j < 2 → s.ByteWritten ((0x000 : BitVec 9).toNat + j) := by
  unfold State.Serves State.NoReset LegalData BytesInOneRegion State.ByteWritten; decide

theorem witness_HostWriteStoresTheBytes :
    (serving (.write 0x0F0 16 7)).Serves (.write 0x0F0 16 7) [] ∧ LegalData (0x0F0 : BitVec 9).toNat 16 := by
  unfold State.Serves State.NoReset LegalData BytesInOneRegion; decide

theorem witness_ReadAfterWriteGivesThatPart :
    let s := { State.reset with pending := [.write 0x040 16 7, .read 0x043 2] }
    s.resetLine = [] ∧ s.running = none ∧ s.pending = [.write 0x040 16 7, .read 0x043 2] ∧
      LegalData (0x040 : BitVec 9).toNat 16 ∧ LegalData (0x043 : BitVec 9).toNat 2 ∧
      (0x043 : BitVec 9).toNat = (0x040 : BitVec 9).toNat + 3 ∧ 3 + 2 ≤ 16 := by
  unfold LegalData BytesInOneRegion; decide

/-- A read past U1.STATE's end and one of CMD with 2 bytes; a write to CAPS and one past U1.BLOCK's end. -/
theorem witness_BusErrorChangesNothing :
    (¬ LegalData (0x012 : BitVec 9).toNat 4 ∧ (serving (.read 0x012 4)).Serves (.read 0x012 4) [] ∧
      ¬ (4 = 4 ∧ ((0x012 : BitVec 9).toNat = 0x100 ∨ (0x012 : BitVec 9).toNat = 0x104 ∨
        (0x012 : BitVec 9).toNat = 0x108))) ∧
    (¬ LegalData (0x100 : BitVec 9).toNat 2 ∧ (serving (.read 0x100 2)).Serves (.read 0x100 2) []) ∧
    (¬ LegalData (0x108 : BitVec 9).toNat 4 ∧ (serving (.write 0x108 4 3)).Serves (.write 0x108 4 3) [] ∧
      ¬ (4 = 4 ∧ ((0x108 : BitVec 9).toNat = 0x100 ∨ (0x108 : BitVec 9).toNat = 0x104))) ∧
    (¬ LegalData (0x071 : BitVec 9).toNat 16 ∧ (serving (.write 0x071 16 0)).Serves (.write 0x071 16 0) []) := by
  unfold State.Serves State.NoReset LegalData BytesInOneRegion
  refine ⟨⟨?_, ?_, ?_⟩, ⟨?_, ?_⟩, ⟨?_, ?_, ?_⟩, ?_, ?_⟩ <;> decide

theorem witness_ControlRegisterReads : (serving (.read 0x100 4)).Serves (.read 0x100 4) [] ∧
    (serving (.read 0x104 4)).Serves (.read 0x104 4) [] ∧ (serving (.read 0x108 4)).Serves (.read 0x108 4) [] := by
  unfold State.Serves State.NoReset; decide

theorem witness_StatusWriteClearsOnOne :
    ((serving (.write 0x104 4 1)).Serves (.write 0x104 4 1) [] ∧ (1 : BitVec 128).getLsbD 0 = true) ∧
    ((serving (.write 0x104 4 0xFFFFFFFE)).Serves (.write 0x104 4 0xFFFFFFFE) [] ∧
      (0xFFFFFFFE : BitVec 128).getLsbD 0 = false) := by
  unfold State.Serves State.NoReset; decide

/-- OP out of range, and RSVD not 0 with a legal OP. -/
theorem witness_IllegalCommandSetsCmdErrAndNothingElse :
    ((serving (.write 0x100 4 3)).Serves (.write 0x100 4 3) [] ∧ ¬ LegalCommandWord ((3 : BitVec 128).setWidth 32)) ∧
    ((serving (.write 0x100 4 0x11)).Serves (.write 0x100 4 0x11) [] ∧
      ¬ LegalCommandWord ((0x11 : BitVec 128).setWidth 32)) := by
  unfold State.Serves State.NoReset LegalCommandWord; decide

theorem witness_ResetLeavesTheResetState : ({ busy .u1 with resetLine := [true] }).resetLine = true :: [] := rfl

/-- A state that holds data and runs keeps the invariant, and has a step. -/
theorem witness_EveryStepKeepsTheInvariant : (busy .u1).Inv ∧ (stateOf (step (busy .u1))).isSome = true := by
  refine ⟨⟨by decide +kernel, by decide +kernel, fun u h => ?_⟩, by decide +kernel⟩
  cases u with
  | u1 => exact absurd rfl h
  | u2 => rfl

theorem witness_NoStepWritesARom : (stateOf (step (busy .u2))).isSome = true := by decide +kernel

theorem witness_UpcStaysInsideTheFixedRoms : (busy .u1).FixedRoms ∧ (busy .u1).UpcInRom ∧
    (stateOf (step (busy .u1))).isSome = true := by
  refine ⟨⟨rfl, rfl⟩, fun u h => ?_, by decide +kernel⟩
  obtain rfl : UnitId.u1 = u := Option.some.inj h
  decide +kernel

theorem witness_FixedRomsAreNeverRefused : State.reset.FixedRoms ∧ State.reset.UpcInRom := by
  refine ⟨⟨rfl, rfl⟩, fun u h => ?_⟩
  simp [State.reset] at h

theorem witness_OnlyHostWritesChangeABlock :
    let s := serving (.write 0x07F 1 0xAA)
    s.FixedRoms ∧ s.NoReset ∧ IsBlock 0x07F ∧ s.mem.byte? 0x07F = some 0x3F ∧ bytes 0x07F 1 (step s) = some [0xAA] := by
  refine ⟨⟨rfl, rfl⟩, ?_, ?_, by decide, by decide⟩
  · unfold State.NoReset; decide
  · unfold IsBlock; decide

theorem witness_AUnitLeavesTheOtherAlone : (busy .u1).NoReset ∧ (busy .u1).running = some .u1 ∧
    UnitId.u2 ≠ UnitId.u1 ∧ (stateOf (step (busy .u1))).isSome = true := by
  unfold State.NoReset; decide +kernel

/-- Two states that differ in U2's registers, CMD_ERR, the responses and the pending accesses. -/
theorem witness_AUnitSeesOnlyItsOwnState :
    let s' := { busy .u1 with u2 := unitWith [(3, ivAbcd)] [], cmdErr := true, responses := [.busErr], pending := [.read 0 1] }
    (busy .u1).NoReset ∧ s'.NoReset ∧ (busy .u1).running = some .u1 ∧ SameForUnit .u1 (busy .u1) s' ∧
      (stateOf (step (busy .u1))).isSome = true := by
  refine ⟨?_, ?_, rfl, ⟨rfl, rfl, rfl, fun _ _ => rfl⟩, by decide +kernel⟩ <;> (unfold State.NoReset; decide)

/-- Both outcomes: an illegal command word sets the flag, a STATUS write clears it. -/
theorem witness_OnlyTwoWritesChangeCmdErr :
    ((serving (.write 0x100 4 3)).NoReset ∧ (serving (.write 0x100 4 3)).cmdErr = false ∧
      (answer (step (serving (.write 0x100 4 3)))).map Prod.fst = some true) ∧
    ({ serving (.write 0x104 4 1) with cmdErr := true }.NoReset ∧
      (answer (step { serving (.write 0x104 4 1) with cmdErr := true })).map Prod.fst = some false) := by
  unfold State.NoReset; decide

/-- Both outcomes: a micro-operation that goes on, and the END of the command. -/
theorem witness_PortIsHeldDuringACommand :
    ((busy .u1).NoReset ∧ (busy .u1).running = some .u1 ∧
      (stateOf (step (busy .u1))).map (fun t => (t.running, t.responses)) = some (some .u1, [])) ∧
    (stateOf (step { busy .u1 with rom1 := [0] })).map (fun t => (t.running, t.responses)) = some (none, [.okay]) := by
  unfold State.NoReset; decide +kernel

theorem witness_Sha1ScheduleIsTheRecurrence : blockAbc.length = 64 := by decide
theorem witness_Sha256ScheduleIsTheRecurrence : blockAbc.length = 64 := by decide

/-- The all-zero schedule meets the recurrence. -/
theorem witness_Sha1ScheduleStepsAreTheRecurrence : ∀ t, 16 ≤ t → t < 20 →
    (fun _ => 0 : Nat → Word) t = rol ((0 : Word) ^^^ 0 ^^^ 0 ^^^ 0) 1 := by decide
theorem witness_Sha256ScheduleStepsAreTheRecurrence : ∀ t, 16 ≤ t → t < 20 →
    (fun _ => 0 : Nat → Word) t = smallSigma1 0 + 0 + smallSigma0 0 + 0 := by decide

theorem witness_Sha1MicroProgramComputesTheCompression :
    let s := serving (.write 0x100 4 1)
    s.rom1 = Rom.u1 ∧ s.resetLine = [] ∧ ∃ m, sha1CompressMemory s = .ok m := by
  refine ⟨rfl, rfl, ?_⟩
  obtain ⟨x, hx⟩ := loadBytes_of_written (s := serving (.write 0x100 4 1)) (a := 0x000) (n := 20)
    (by unfold State.ByteWritten; decide)
  obtain ⟨y, hy⟩ := loadBytes_of_written (s := serving (.write 0x100 4 1)) (a := 0x040) (n := 64)
    (by unfold State.ByteWritten; decide +kernel)
  exact ⟨_, by rw [sha1CompressMemory, hx, hy]; rfl⟩

theorem witness_Sha256MicroProgramComputesTheCompression :
    let s := serving (.write 0x100 4 2)
    s.rom2 = Rom.u2 ∧ s.resetLine = [] ∧ ∃ m, sha256CompressMemory s = .ok m := by
  refine ⟨rfl, rfl, ?_⟩
  obtain ⟨x, hx⟩ := loadBytes_of_written (s := serving (.write 0x100 4 2)) (a := 0x080) (n := 32)
    (by unfold State.ByteWritten; decide +kernel)
  obtain ⟨y, hy⟩ := loadBytes_of_written (s := serving (.write 0x100 4 2)) (a := 0x0C0) (n := 64)
    (by unfold State.ByteWritten; decide +kernel)
  exact ⟨_, by rw [sha256CompressMemory, hx, hy]; rfl⟩

end Sys2Proof.Tests
end

section
/-! PROOFS. The state, the steps and the invariants (10_state.md): first what a micro-operation reads and stores and
what an access of the port does, each said once; then the obligations of this family. -/

namespace Sys2Proof.Machine

/-! ### Decoding and single instructions -/

/-- A word that decodes in a unit's ROM is an instruction that may stand there (R116, R117). -/
theorem wellFormed_of_decode_rom {u : UnitId} {w : Word} {i : Instr} (h : decode (.rom u) w = .ok i) :
    i.wellFormed (.rom u) = true := by
  have hc : ∀ j, checkUnit u j = .ok i → i.wellFormed (.rom u) = true := by
    intro j hj
    unfold checkUnit at hj
    split at hj
    · split at hj
      · obtain rfl : j = i := by simpa using hj
        simp [Instr.wellFormed, *]
      · simp at hj
    · simp at hj
  simp only [decode, decodeMicro] at h
  split at h
  · exact hc _ h
  · simp at h

/-- A legal command word is 0, 1 or 2 (R101, R102). -/
theorem legalCommandWord_toNat_lt {w : Word} (h : LegalCommandWord w) : w.toNat < 3 := by
  obtain ⟨hr, ho⟩ := h
  have hr : w.toNat >>> 4 % 2 ^ 28 = 0 := by simpa using congrArg BitVec.toNat hr
  have ho : w.toNat % 16 = 0 ∨ w.toNat % 16 = 1 ∨ w.toNat % 16 = 2 := by
    simpa using ho.imp (congrArg BitVec.toNat) (Or.imp (congrArg BitVec.toNat) (congrArg BitVec.toNat))
  rw [Nat.shiftRight_eq_div_pow] at hr
  omega

/-- A word that is no command is no legal command word (R102). -/
theorem not_legalCommandWord_of_decode_error {w : Word} {e : DecodeError} (h : decode .cmd w = .error e) :
    ¬ LegalCommandWord w := by
  intro hl
  have hw : w.toNat = 0 ∨ w.toNat = 1 ∨ w.toNat = 2 := by
    have := legalCommandWord_toNat_lt hl
    omega
  rcases hw with hw | hw | hw <;> simp [decode, decodeCommand, hw] at h

theorem exec_endOp {s : State} {u : UnitId} (hr : s.running = some u) :
    exec .endOp s = .next (s.setUpc u 0).complete := by
  simp [exec, execEndOp, hr]

theorem exec_compressCommand (u : UnitId) (s : State) : exec (compressCommand u) s = startCommand u s := by
  cases u <;> rfl

/-- All that an instruction of the executing unit's ROM can do: END ends the command; any other writes a register or
stores, and `upc` advances (R171, R182). -/
theorem exec_rom_cases {u : UnitId} {i : Instr} {s t : State} (hr : s.running = some u)
    (hw : i.wellFormed (.rom u) = true) (h : exec i s = .next t) :
    (i = .endOp ∧ t = (s.setUpc u 0).complete) ∨ (i ≠ .endOp ∧ ∃ t', MicroEffect u s t' ∧ t = t'.advance u) := by
  by_cases hi : i = .endOp
  · subst hi
    rw [exec_endOp hr] at h
    exact .inl ⟨rfl, by simpa using h.symm⟩
  · refine .inr ⟨hi, ?_⟩
    rcases exec_cases h with ⟨rfl, -⟩ | ⟨rfl, -⟩ | ⟨rfl, -⟩ | ⟨rfl, -⟩ | ⟨v, t', hv, -, he, ht⟩
    · simp [Instr.wellFormed, Instr.runsOn] at hw
    · simp [Instr.wellFormed, Instr.runsOn] at hw
    · simp [Instr.wellFormed, Instr.runsOn] at hw
    · exact absurd rfl hi
    · obtain rfl : u = v := by simpa [hr] using hv
      exact ⟨t', he, ht⟩

/-- With reset not asserted and a unit executing, a step is that unit's micro-operation (R145, R171). -/
theorem step_running_cases {s t : State} {u : UnitId} (hn : s.NoReset) (hr : s.running = some u)
    (h : step s = .next t) :
    ∃ w i, s.fetchWord? u = some w ∧ decode (.rom u) w = .ok i ∧ exec i s.sampled = .next t := by
  rcases step_cases h with ⟨rest, hl, -⟩ | ⟨-, v, w, i, hv, hx⟩ | ⟨-, hr', -⟩ | ⟨-, hr', -⟩
  · simp [State.NoReset, hl] at hn
  · obtain rfl : u = v := by simpa [hr] using hv
    exact ⟨w, i, hx⟩
  · simp [hr] at hr'
  · simp [hr] at hr'

/-! ### The window -/

/-- Every byte of an access inside one data region is a data byte (R70, R76). -/
theorem isData_of_bytesInOneRegion {o n a : Nat} (h : BytesInOneRegion o n) (h1 : o ≤ a) (h2 : a < o + n) :
    (region a).isData = true := by
  unfold BytesInOneRegion at h
  rcases region_cases a with ⟨e, -⟩ | ⟨e, -⟩ | ⟨e, -⟩ | ⟨e, -⟩ | ⟨-, hr⟩
  · rw [e]; rfl
  · rw [e]; rfl
  · rw [e]; rfl
  · rw [e]; rfl
  · omega

/-- The bytes a unit may name are its own (R75, R77). -/
theorem inUnit_of_localLegal {u : UnitId} {o n k : Nat} (h : localLegal u o n = true) (hk : k < n) :
    InUnit u (unitBase u + o + k) := by
  rw [localLegal_iff] at h
  unfold InUnit
  cases u <;> simp only [stateBytes] at h <;> omega

theorem not_inUnit_of_inUnit {u w : UnitId} {a : Nat} (h : w ≠ u) (ha : InUnit w a) : ¬ InUnit u a := by
  unfold InUnit at *
  cases u <;> cases w <;> simp [unitBase] at * <;> omega

/-- Bytes stored inside one data region leave the memory listing data bytes only (R70). -/
theorem store_inRegions {m : Memory} {a : Nat} {bs : List Byte} (h : m.inRegions = true)
    (hb : BytesInOneRegion a bs.length) : (m.store a bs).inRegions = true := by
  simp only [Memory.inRegions, List.all_eq_true] at *
  intro c hc
  rcases mem_store hc with hm | ⟨h1, h2⟩
  · exact h c hm
  · exact isData_of_bytesInOneRegion hb h1 h2

/-- Memories that read the same at an offset still do after the same store. -/
theorem byte?_store_congr {m m' : Memory} {c : Nat} (a : Nat) (bs : List Byte) (h : m.byte? c = m'.byte? c) :
    (m.store a bs).byte? c = (m'.store a bs).byte? c := by
  by_cases hc : c < a ∨ a + bs.length ≤ c
  · rw [byte?_store_outside _ _ hc, byte?_store_outside _ _ hc, h]
  · obtain ⟨k, rfl⟩ := Nat.exists_eq_add_of_le (show a ≤ c by omega)
    have hk : k < bs.length := by omega
    rw [byte?_store_inside _ _ _ hk, byte?_store_inside _ _ _ hk]

theorem load_congr {m m' : Memory} {a n : Nat} (h : ∀ k < n, m.byte? (a + k) = m'.byte? (a + k)) :
    m.load a n = m'.load a n := by
  induction n generalizing a with
  | zero => rfl
  | succ n ih =>
    have h0 : m.byte? a = m'.byte? a := h 0 (by omega)
    have hs : m.load (a + 1) n = m'.load (a + 1) n := ih fun k hk => by
      simpa [Nat.add_assoc, Nat.add_comm 1 k] using h (k + 1) (by omega)
    rw [Memory.load, Memory.load, h0, hs]

/-- A load depends on the bytes it names alone (R47). -/
theorem loadBytes_congr {s s' : State} {a n : Nat} (h : ∀ k < n, s.mem.byte? (a + k) = s'.mem.byte? (a + k)) :
    s.loadBytes a n = s'.loadBytes a n := by
  rw [State.loadBytes, State.loadBytes, load_congr h]

theorem readV_congr {s s' : State} {u : UnitId} (h : s.unit u = s'.unit u) (r : Reg) :
    s.readV u r = s'.readV u r := by
  rw [State.readV, State.readV, h]

theorem readS_congr {s s' : State} {u : UnitId} (h : s.unit u = s'.unit u) (r : Reg) :
    s.readS u r = s'.readS u r := by
  rw [State.readS, State.readS, h]

/-! ### What a micro-operation reads and stores -/

/-- The unit-local offset and size an operation stores to. -/
def stores : Instr → Option (Nat × Nat)
  | .vst imm _ => some (imm.toNat, 16)
  | .sst imm _ => some (imm.toNat, 4)
  | .nop | .sha1Compress | .sha256Compress | .endOp | .vld _ _ | .sld _ _ | .vmov _ _ | .smov _ _ | .sgetl _ _ _
  | .vrev32 _ _ | .vadd _ _ _ | .sadd _ _ _ | .vdupk _ _ | .vldk _ _ | .sha1c _ _ _ | .sha1p _ _ _ | .sha1m _ _ _
  | .sha1h _ _ | .sha1su0 _ _ _ | .sha1su1 _ _ | .sha256h _ _ _ | .sha256h2 _ _ _ | .sha256su0 _ _
  | .sha256su1 _ _ _ => none

/-- What an operation reads, and the bytes it stores to: V registers, S registers, and unit-local offsets with sizes. -/
structure Footprint where
  vs : List Reg
  ss : List Reg
  load : Option (Nat × Nat)
  store : Option (Nat × Nat)

/-- The footprint of an instruction, its sources as Safety.lean lists them. -/
def footprint (i : Instr) : Footprint := ⟨vSources i, sSources i, loads i, stores i⟩

/-- Everything in the footprint that unit `u` reads has been written (R45). -/
def State.FootprintWritten (s : State) (u : UnitId) (fp : Footprint) : Prop :=
  (∀ r : Reg, r ∈ fp.vs → (s.unit u).vWritten[r] = true) ∧
  (∀ r : Reg, r ∈ fp.ss → (s.unit u).sWritten[r] = true) ∧
  ∀ o n, fp.load = some (o, n) → ∀ k < n, s.ByteWritten (unitBase u + o + k)

/-- `k` is the effect of a micro-operation on unit `u` with this footprint: reads of the unit's registers and of its own
window bytes, one after the other, and then one write, whose value depends on what was read and on nothing else. -/
inductive MicroBody (u : UnitId) : Footprint → (State → Except Fault State) → Prop
  | writeV (d : Reg) (x : Vec) : MicroBody u ⟨[], [], none, none⟩ fun s => pure (s.writeV u d x)
  | writeS (d : Reg) (x : Word) : MicroBody u ⟨[], [], none, none⟩ fun s => pure (s.writeS u d x)
  | store (imm : BitVec 12) (n : Nat) (bs : List Byte) (hl : localLegal u imm.toNat n = true) (hn : bs.length = n) :
      MicroBody u ⟨[], [], none, some (imm.toNat, n)⟩ fun s => pure (s.storeBytes (localAddr u imm) bs)
  | readV {vs ss ld st} (r : Reg) (f : Vec → State → Except Fault State)
      (h : ∀ x, MicroBody u ⟨vs, ss, ld, st⟩ (f x)) :
      MicroBody u ⟨r :: vs, ss, ld, st⟩ fun s => s.readV u r >>= fun x => f x s
  | readS {vs ss ld st} (r : Reg) (f : Word → State → Except Fault State)
      (h : ∀ x, MicroBody u ⟨vs, ss, ld, st⟩ (f x)) :
      MicroBody u ⟨vs, r :: ss, ld, st⟩ fun s => s.readS u r >>= fun x => f x s
  | load {vs ss st} (imm : BitVec 12) (n : Nat) (f : List Byte → State → Except Fault State)
      (hl : localLegal u imm.toNat n = true) (h : ∀ bs, MicroBody u ⟨vs, ss, none, st⟩ (f bs)) :
      MicroBody u ⟨vs, ss, some (imm.toNat, n), st⟩ fun s => s.loadBytes (localAddr u imm) n >>= fun bs => f bs s

/-- Every micro-operation but END is a body with its own footprint, run in the shared frame (R170, R171). -/
theorem exec_microBody {u : UnitId} {i : Instr} (hw : i.wellFormed (.rom u) = true) (hi : i ≠ .endOp) :
    ∃ k : State → UnitId → Except Fault State,
      (∀ s, exec i s = microOp i s (k s)) ∧ MicroBody u (footprint i) fun s => k s u := by
  have hoff : i.offsetOk u = true := by
    simp only [Instr.wellFormed, Bool.and_eq_true] at hw
    exact hw.2
  cases i with
  | nop | sha1Compress | sha256Compress => simp [Instr.wellFormed, Instr.runsOn] at hw
  | endOp => exact absurd rfl hi
  | vld d imm => exact ⟨_, fun _ => rfl, .load imm 16 _ hoff fun _ => .writeV d _⟩
  | vst imm n => exact ⟨_, fun _ => rfl, .readV n _ fun x => .store imm 16 _ hoff (vecBytes_length x)⟩
  | sld d imm => exact ⟨_, fun _ => rfl, .load imm 4 _ hoff fun _ => .writeS d _⟩
  | sst imm n => exact ⟨_, fun _ => rfl, .readS n _ fun x => .store imm 4 _ hoff (leBytes_length x 4)⟩
  | vmov d n | vrev32 d n => exact ⟨_, fun _ => rfl, .readV n _ fun _ => .writeV d _⟩
  | smov d n | sha1h d n => exact ⟨_, fun _ => rfl, .readS n _ fun _ => .writeS d _⟩
  | sgetl d n l => exact ⟨_, fun _ => rfl, .readV n _ fun _ => .writeS d _⟩
  | vadd d n m => exact ⟨_, fun _ => rfl, .readV n _ fun _ => .readV m _ fun _ => .writeV d _⟩
  | sadd d n m => exact ⟨_, fun _ => rfl, .readS n _ fun _ => .readS m _ fun _ => .writeS d _⟩
  | vdupk d k => exact ⟨fun s u => .ok (s.writeV u d ⟨k1 k, k1 k, k1 k, k1 k⟩), fun _ => rfl, .writeV d _⟩
  | vldk d g =>
    exact ⟨fun s u => .ok (s.writeV u d ⟨k256 (4 * g), k256 (4 * g + 1), k256 (4 * g + 2), k256 (4 * g + 3)⟩),
      fun _ => rfl, .writeV d _⟩
  | sha1c d n m | sha1p d n m | sha1m d n m =>
    exact ⟨_, fun _ => rfl, .readV d _ fun _ => .readS n _ fun _ => .readV m _ fun _ => .writeV d _⟩
  | sha1su1 d n | sha256su0 d n => exact ⟨_, fun _ => rfl, .readV d _ fun _ => .readV n _ fun _ => .writeV d _⟩
  | sha1su0 d n m | sha256h d n m | sha256h2 d n m | sha256su1 d n m =>
    exact ⟨_, fun _ => rfl, .readV d _ fun _ => .readV n _ fun _ => .readV m _ fun _ => .writeV d _⟩

/-- `m` answers exactly when `P`; if not, it is the fault Uninit at a location that is unwritten in `s` (R45, R301). -/
def AnswersIff {α : Type} (s : State) (P : Prop) (m : Except Fault α) : Prop :=
  (P ∧ ∃ x, m = .ok x) ∨ (¬ P ∧ ∃ l, m = .error (.uninit l) ∧ l.Unwritten s)

theorem readV_answersIff (s : State) (u : UnitId) (r : Reg) :
    AnswersIff s ((s.unit u).vWritten[r] = true) (s.readV u r) := by
  cases h : (s.unit u).vWritten[r] with
  | true => exact .inl ⟨rfl, _, readV_of_written h⟩
  | false => exact .inr ⟨Bool.false_ne_true, _, readV_of_unwritten h, h⟩

theorem readS_answersIff (s : State) (u : UnitId) (r : Reg) :
    AnswersIff s ((s.unit u).sWritten[r] = true) (s.readS u r) := by
  cases h : (s.unit u).sWritten[r] with
  | true => exact .inl ⟨rfl, _, readS_of_written h⟩
  | false => exact .inr ⟨Bool.false_ne_true, _, readS_of_unwritten h, h⟩

theorem loadBytes_answersIff (s : State) (a n : Nat) :
    AnswersIff s (∀ k < n, s.ByteWritten (a + k)) (s.loadBytes a n) := by
  by_cases h : ∀ k < n, s.ByteWritten (a + k)
  · exact .inl ⟨h, loadBytes_of_written h⟩
  · refine .inr ⟨h, ?_⟩
    cases hl : s.loadBytes a n with
    | ok bs =>
      obtain ⟨hlen, hb⟩ := (loadBytes_ok_iff ..).mp hl
      exact absurd (fun k hk => by rw [State.ByteWritten, hb k (by omega)]; rfl) h
    | error f =>
      obtain ⟨e, rfl, -, -, he, -⟩ := (loadBytes_error_iff ..).mp hl
      exact ⟨_, rfl, he⟩

theorem AnswersIff.bind {α β : Type} {s : State} {P Q R : Prop} {m : Except Fault α} {f : α → Except Fault β}
    (hR : R ↔ P ∧ Q) (hm : AnswersIff s P m) (hf : ∀ x, AnswersIff s Q (f x)) : AnswersIff s R (m >>= f) := by
  rw [AnswersIff, hR]
  rcases hm with ⟨hp, x, rfl⟩ | ⟨hp, l, rfl, hl⟩
  · exact (hf x).imp (And.imp_left fun hq => ⟨hp, hq⟩) (And.imp_left fun hq h => hq h.2)
  · exact .inr ⟨fun h => hp h.1, l, rfl, hl⟩

/-! What each read adds to a footprint. -/

theorem footprintWritten_readV {s : State} {u : UnitId} {r : Reg} {vs ss ld st} :
    s.FootprintWritten u ⟨r :: vs, ss, ld, st⟩ ↔
      (s.unit u).vWritten[r] = true ∧ s.FootprintWritten u ⟨vs, ss, ld, st⟩ := by
  simp [State.FootprintWritten, and_assoc]

theorem footprintWritten_readS {s : State} {u : UnitId} {r : Reg} {vs ss ld st} :
    s.FootprintWritten u ⟨vs, r :: ss, ld, st⟩ ↔
      (s.unit u).sWritten[r] = true ∧ s.FootprintWritten u ⟨vs, ss, ld, st⟩ := by
  simp [State.FootprintWritten, and_assoc, and_left_comm]

theorem footprintWritten_load {s : State} {u : UnitId} {o n : Nat} {vs ss st} :
    s.FootprintWritten u ⟨vs, ss, some (o, n), st⟩ ↔
      (∀ k < n, s.ByteWritten (unitBase u + o + k)) ∧ s.FootprintWritten u ⟨vs, ss, none, st⟩ := by
  simp [State.FootprintWritten, and_comm, and_left_comm]

/-- A body answers exactly when its footprint is written; if not, it names an unwritten location (R45, R170, R301). -/
theorem microBody_answersIff {u : UnitId} {fp : Footprint} {k : State → Except Fault State}
    (h : MicroBody u fp k) (s : State) : AnswersIff s (s.FootprintWritten u fp) (k s) := by
  induction h with
  | writeV | writeS | store => exact .inl ⟨by simp [State.FootprintWritten], _, rfl⟩
  | readV r f _ ih => exact .bind footprintWritten_readV (readV_answersIff s u r) ih
  | readS r f _ ih => exact .bind footprintWritten_readS (readS_answersIff s u r) ih
  | load imm n f _ _ ih => exact .bind footprintWritten_load (loadBytes_answersIff s _ n) ih

/-- A body changes no byte outside the ones its footprint stores to. -/
theorem microBody_keepsMem_outside {u : UnitId} {fp : Footprint} {k : State → Except Fault State}
    (h : MicroBody u fp k) {s t : State} (hk : k s = .ok t) {a : Nat}
    (ha : ∀ o n, fp.store = some (o, n) → a < unitBase u + o ∨ unitBase u + o + n ≤ a) :
    t.mem.byte? a = s.mem.byte? a := by
  induction h with
  | writeV d x => obtain rfl := except_pure_ok.mp hk; simp [State.writeV]
  | writeS d x => obtain rfl := except_pure_ok.mp hk; simp [State.writeS]
  | store imm n bs _ hn =>
    obtain rfl := except_pure_ok.mp hk
    exact byte?_store_outside _ _ (hn ▸ ha _ _ rfl)
  | readV r f _ ih => obtain ⟨x, -, hk⟩ := except_bind_ok.mp hk; exact ih x hk ha
  | readS r f _ ih => obtain ⟨x, -, hk⟩ := except_bind_ok.mp hk; exact ih x hk ha
  | load imm n f _ _ ih => obtain ⟨bs, -, hk⟩ := except_bind_ok.mp hk; exact ih bs hk ha

/-- A body does the same to two states that are the same to its unit (R47, R151). -/
theorem microBody_sameForUnit {u : UnitId} {fp : Footprint} {k : State → Except Fault State}
    (h : MicroBody u fp k) {s s' t : State} (hs : SameForUnit u s s') (hk : k s = .ok t) :
    ∃ t', k s' = .ok t' ∧ SameForUnit u t t' := by
  obtain ⟨hrun, hunit, hrom, hmem⟩ := hs
  induction h with
  | writeV d x =>
    obtain rfl := except_pure_ok.mp hk
    exact ⟨_, rfl, by simpa [State.writeV] using hrun, by simp [State.writeV, hunit],
      by simpa [State.writeV, setUnit_rom] using hrom, by simpa [State.writeV] using hmem⟩
  | writeS d x =>
    obtain rfl := except_pure_ok.mp hk
    exact ⟨_, rfl, by simpa [State.writeS] using hrun, by simp [State.writeS, hunit],
      by simpa [State.writeS, setUnit_rom] using hrom, by simpa [State.writeS] using hmem⟩
  | store imm n bs =>
    obtain rfl := except_pure_ok.mp hk
    refine ⟨_, rfl, hrun, by simpa using hunit, ?_, fun a ha => byte?_store_congr _ _ (hmem a ha)⟩
    cases u <;> exact hrom
  | readV r f _ ih =>
    obtain ⟨x, hx, hk⟩ := except_bind_ok.mp hk
    obtain ⟨t', ht, hst⟩ := ih x hk
    exact ⟨t', except_bind_ok.mpr ⟨x, readV_congr hunit r ▸ hx, ht⟩, hst⟩
  | readS r f _ ih =>
    obtain ⟨x, hx, hk⟩ := except_bind_ok.mp hk
    obtain ⟨t', ht, hst⟩ := ih x hk
    exact ⟨t', except_bind_ok.mpr ⟨x, readS_congr hunit r ▸ hx, ht⟩, hst⟩
  | load imm n f hl _ ih =>
    obtain ⟨bs, hbs, hk⟩ := except_bind_ok.mp hk
    obtain ⟨t', ht, hst⟩ := ih bs hk
    have hc := loadBytes_congr (s := s) (s' := s') fun k hk => hmem (localAddr u imm + k) (inUnit_of_localLegal hl hk)
    exact ⟨t', except_bind_ok.mpr ⟨bs, hc ▸ hbs, ht⟩, hst⟩

/-! ### What a micro-operation leaves unchanged -/

/-- A micro-operation of unit `u` keeps all but the unit and the window bytes. -/
theorem microEffect_keepsRest {u : UnitId} {s t : State} (h : MicroEffect u s t) : KeepsRest u s (t.advance u) := by
  cases h with
  | vector d x h => subst h; exact keepsRest_setUnit ..
  | scalar d x h => subst h; exact keepsRest_setUnit ..
  | memory imm bs hl h =>
    subst h
    obtain ⟨-, -, -, -, hr⟩ := stores_storeBytes s u (localAddr u imm) bs
    exact hr

/-- A micro-operation of unit `u` advances its `upc` (R171). -/
theorem microEffect_upc {u : UnitId} {s t : State} (h : MicroEffect u s t) :
    ((t.advance u).unit u).upc = (s.unit u).upc + 1 := by
  cases h with
  | vector d x h => subst h; simp [State.writeV]
  | scalar d x h => subst h; simp [State.writeS]
  | memory imm bs hl h => subst h; simp

/-- A micro-operation of unit `u` leaves memory, or stores bytes inside one data region and the unit's part. -/
theorem microEffect_mem {u : UnitId} {s t : State} (h : MicroEffect u s t) :
    t.mem = s.mem ∨ ∃ o bs, localLegal u o bs.length = true ∧ t.mem = s.mem.store (unitBase u + o) bs := by
  cases h with
  | vector d x h => subst h; exact .inl (by simp [State.writeV])
  | scalar d x h => subst h; exact .inl (by simp [State.writeS])
  | memory imm bs hl h => subst h; exact .inr ⟨imm.toNat, bs, hl, rfl⟩

/-- A micro-operation of unit `u` leaves every byte that is not the unit's (R75). -/
theorem microEffect_byte_outside {u : UnitId} {s t : State} (h : MicroEffect u s t) {a : Nat} (ha : ¬ InUnit u a) :
    t.mem.byte? a = s.mem.byte? a := by
  rcases microEffect_mem h with hm | ⟨o, bs, hl, hm⟩
  · rw [hm]
  · rw [hm, byte?_store_outside]
    by_contra hc
    refine ha ?_
    rw [show a = unitBase u + o + (a - (unitBase u + o)) by omega]
    exact inUnit_of_localLegal hl (by omega)

/-! ### What an access of the port does -/

/-- All that the access `a` can do when it answers a next state: a response and nothing else; the bytes of a legal write
stored; STATUS written; the flag of an illegal command word; or a unit started (R140 to R149). -/
inductive AccessEffect (a : Transaction) (s t : State) : Prop where
  | respond (r : Response) (h : t = s.respond r)
  | store (off : BitVec 9) (n : Nat) (data : BitVec 128) (ha : a = .write off n data) (hl : LegalData off.toNat n)
      (h : t = (s.storeBytes off.toNat (leBytes data n)).respond .okay)
  | status (off : BitVec 9) (data : BitVec 128) (ha : a = .write off 4 data) (ho : off.toNat = 0x104)
      (h : t = (s.writeStatus (data.setWidth 32)).respond .okay)
  | illegal (off : BitVec 9) (data : BitVec 128) (ha : a = .write off 4 data) (ho : off.toNat = 0x100)
      (hi : ¬ LegalCommandWord (data.setWidth 32)) (h : t = s.setCmdErr.respond .okay)
  | start (u : UnitId) (hin : s.InputsWritten u) (h : t = s.startUnit u)

/-- A command word's effect, for a write of it to CMD (R145 to R149). -/
theorem command_effect {off : BitVec 9} {data : BitVec 128} {s t : State} (ho : off.toNat = 0x100)
    (h : command (data.setWidth 32) s = .next t) : AccessEffect (.write off 4 data) s t := by
  unfold command at h
  split at h
  · next i hi =>
    simp only [decode, decodeCommand] at hi
    split at hi
    · obtain rfl : Instr.nop = i := by simpa using hi
      exact .respond .okay (by simpa [exec, execNop] using h.symm)
    · obtain rfl : Instr.sha1Compress = i := by simpa using hi
      obtain ⟨hin, ht⟩ := (startCommand_next_iff .u1 s t).mp h
      exact .start .u1 hin ht
    · obtain rfl : Instr.sha256Compress = i := by simpa using hi
      obtain ⟨hin, ht⟩ := (startCommand_next_iff .u2 s t).mp h
      exact .start .u2 hin ht
    · simp at hi
  · next e he => exact .illegal off data rfl ho (not_legalCommandWord_of_decode_error he) (by simpa using h.symm)

theorem hostAccess_effect {a : Transaction} {s t : State} (h : hostAccess a s = .next t) : AccessEffect a s t := by
  cases a with
  | read off n =>
    simp only [hostAccess, hostRead, busError] at h
    split at h
    · split at h
      · exact .respond _ (by simpa using h.symm)
      · simp at h
    · split at h
      · exact .respond _ (by simpa using h.symm)
      · exact .respond _ (by simpa using h.symm)
  | write off n data =>
    simp only [hostAccess, hostWrite, busError, Bool.and_eq_true, decide_eq_true_eq] at h
    split at h
    · next hd => exact .store off n data rfl ((dataAccess_iff ..).mp hd) (by simpa using h.symm)
    · split at h
      · next hc =>
        obtain ⟨hc, ho⟩ := hc
        obtain ⟨rfl, -⟩ := (ctrlAccess_iff ..).mp hc
        exact command_effect ho h
      · split at h
        · next hc =>
          obtain ⟨hc, ho⟩ := hc
          obtain ⟨rfl, -⟩ := (ctrlAccess_iff ..).mp hc
          exact .status off data rfl ho (by simpa using h.symm)
        · exact .respond _ (by simpa using h.symm)

/-! ### What a step does -/

/-- `s` when the port takes its oldest access: the reset sample used up, and `rest` still pending (R84). -/
def State.accepted (s : State) (rest : List Transaction) : State := { s.sampled with pending := rest }

@[simp] theorem accepted_mem (s : State) (rest : List Transaction) : (s.accepted rest).mem = s.mem := rfl

@[simp] theorem accepted_cmdErr (s : State) (rest : List Transaction) : (s.accepted rest).cmdErr = s.cmdErr := rfl

@[simp] theorem accepted_running (s : State) (rest : List Transaction) : (s.accepted rest).running = s.running := rfl

@[simp] theorem accepted_rom1 (s : State) (rest : List Transaction) : (s.accepted rest).rom1 = s.rom1 := rfl

@[simp] theorem accepted_rom2 (s : State) (rest : List Transaction) : (s.accepted rest).rom2 = s.rom2 := rfl

@[simp] theorem accepted_unit (s : State) (rest : List Transaction) (u : UnitId) :
    (s.accepted rest).unit u = s.unit u := by
  cases u <;> rfl

/-- All that a step can do when it answers a next state: a reset; END; a micro-operation that writes a register or
stores; an access of the port; or nothing but use up a reset sample. -/
inductive StepEffect (s t : State) : Prop where
  | reset (rest : List Bool) (hl : s.resetLine = true :: rest) (h : t = { s with resetLine := rest }.platformReset)
  | finish (u : UnitId) (hr : s.running = some u) (h : t = (s.sampled.setUpc u 0).complete)
  | micro (u : UnitId) (w : Word) (i : Instr) (t' : State) (hr : s.running = some u) (hf : s.fetchWord? u = some w)
      (hd : decode (.rom u) w = .ok i) (hi : i ≠ .endOp) (he : exec i s.sampled = .next t)
      (hm : MicroEffect u s.sampled t') (h : t = t'.advance u)
  | access (a : Transaction) (rest : List Transaction) (hr : s.running = none) (hp : s.pending = a :: rest)
      (ha : AccessEffect a (s.accepted rest) t)
  | idle (hr : s.running = none) (h : t = s.sampled)

theorem step_effect {s t : State} (h : step s = .next t) : StepEffect s t := by
  rcases step_cases h with ⟨rest, hl, ht⟩ | ⟨-, u, w, i, hr, hf, hd, he⟩ | ⟨-, hr, a, rest, hp, ha⟩ | ⟨-, hr, -, ht⟩
  · exact .reset rest hl ht
  · rcases exec_rom_cases (s := s.sampled) hr (wellFormed_of_decode_rom hd) he with ⟨-, ht⟩ | ⟨hi, t', hm, ht⟩
    · exact .finish u hr ht
    · exact .micro u w i t' hr hf hd hi he hm ht
  · exact .access a rest hr hp (hostAccess_effect ha)
  · exact .idle hr ht

/-! ### The invariant (R43, R70) -/

theorem state_reset_unit (u : UnitId) : State.reset.unit u = UnitState.reset := by cases u <;> rfl

theorem platformReset_unit (s : State) (u : UnitId) : s.platformReset.unit u = UnitState.reset := by cases u <;> rfl

theorem inv_reset : State.reset.Inv := ⟨rfl, rfl, fun u _ => by rw [state_reset_unit]; rfl⟩

theorem inv_platformReset (s : State) : s.platformReset.Inv :=
  ⟨rfl, rfl, fun u _ => by rw [platformReset_unit]; rfl⟩

/-- The invariant speaks of memory, the units and the command in progress alone. -/
theorem inv_of_same {s t : State} (h : s.Inv) (hm : t.mem = s.mem) (hr : t.running = s.running)
    (hu : ∀ u, t.unit u = s.unit u) : t.Inv := by
  obtain ⟨hwf, hreg, hupc⟩ := h
  exact ⟨hm ▸ hwf, hm ▸ hreg, fun u hru => by rw [hu]; exact hupc u (hr ▸ hru)⟩

/-- A micro-operation keeps the invariant: what it stores lies in one data region, and only the executing unit's `upc`
moves. -/
theorem microEffect_inv {u : UnitId} {s t : State} (h : MicroEffect u s t) (hr : s.running = some u) (hs : s.Inv) :
    (t.advance u).Inv := by
  obtain ⟨hwf, hreg, hupc⟩ := hs
  obtain ⟨hunit, -, hrun, -⟩ := microEffect_keepsRest h
  refine ⟨?_, ?_, fun w hw => ?_⟩
  · rcases microEffect_mem h with hm | ⟨o, bs, -, hm⟩
    · simpa [hm] using hwf
    · simpa [hm] using store_wf hwf _ _
  · rcases microEffect_mem h with hm | ⟨o, bs, hl, hm⟩
    · simpa [hm] using hreg
    · simpa [hm] using store_inRegions hreg (localLegal_region hl)
  · rw [hrun] at hw
    rw [hunit w fun e => hw (e ▸ hr)]
    exact hupc w hw

/-- The end of a command keeps the invariant: the unit that stops has `upc` 0. -/
theorem inv_endOp {u : UnitId} {s : State} (hr : s.running = some u) (hs : s.Inv) : (s.setUpc u 0).complete.Inv := by
  obtain ⟨hwf, hreg, hupc⟩ := hs
  refine ⟨by simpa [State.setUpc] using hwf, by simpa [State.setUpc] using hreg, fun w _ => ?_⟩
  by_cases hw : w = u
  · subst hw; simp [State.setUpc]
  · rw [complete_unit, State.setUpc, setUnit_unit_other _ _ hw]
    exact hupc w fun e => hw (by simpa [hr] using e.symm)

/-- The start of a command with the port free keeps the invariant. -/
theorem inv_startUnit {s : State} (u : UnitId) (hr : s.running = none) (hs : s.Inv) : (s.startUnit u).Inv := by
  obtain ⟨hwf, hreg, hupc⟩ := hs
  refine ⟨by simpa using hwf, by simpa using hreg, fun w hw => ?_⟩
  rw [startUnit_unit_other _ fun e => hw (by simp [e])]
  exact hupc w (by simp [hr])

/-- An access of the port keeps the invariant. -/
theorem accessEffect_inv {a : Transaction} {s t : State} (h : AccessEffect a s t) (hr : s.running = none)
    (hs : s.Inv) : t.Inv := by
  cases h with
  | respond r h => subst h; exact inv_of_same hs rfl rfl (by simp)
  | store off n data _ hl h =>
    subst h
    obtain ⟨hwf, hreg, hupc⟩ := hs
    refine ⟨store_wf hwf _ _, store_inRegions hreg ?_, fun u hu => by simpa using hupc u hu⟩
    simpa [leBytes_length] using hl.2
  | status off data _ _ h => subst h; rw [writeStatus_eq]; exact inv_of_same hs rfl rfl fun u => by cases u <;> rfl
  | illegal off data _ _ _ h => subst h; exact inv_of_same hs rfl rfl (by simp)
  | start u _ h => subst h; exact inv_startUnit u hr hs

/-- Settles O43: reset itself is the base case of the three invariants. -/
theorem invariantHoldsAtReset : Obligations.InvariantHoldsAtReset :=
  ⟨inv_reset, ⟨rfl, rfl⟩, fun u h => by simp [State.reset] at h⟩

/-- Settles O44: by what a step can do (a reset, a micro-operation, an access of the port, nothing). -/
theorem everyStepKeepsTheInvariant : Obligations.EveryStepKeepsTheInvariant := by
  intro s t hs h
  have hsampled : s.sampled.Inv := inv_of_same hs rfl rfl (by simp)
  cases step_effect h with
  | reset rest _ ht => exact ht ▸ inv_platformReset _
  | finish u hr ht => exact ht ▸ inv_endOp hr hsampled
  | micro u w i t' hr _ _ _ _ hm ht => exact ht ▸ microEffect_inv hm hr hsampled
  | access a rest hr _ ha => exact accessEffect_inv ha hr (inv_of_same hs rfl rfl (by simp))
  | idle _ ht => exact ht ▸ hsampled

/-- Settles O42: the reset state's own fields, and what `platformReset` takes from the old state. -/
theorem resetLeavesTheResetState : Obligations.ResetLeavesTheResetState := by
  intro s line hl
  refine ⟨_, step_eq_reset hl, fun a => rfl, rfl, rfl, fun u => ?_, rfl, rfl, rfl, rfl, rfl⟩
  rw [platformReset_unit]
  exact ⟨rfl, fun r => by simp [UnitState.reset]⟩

/-! ### The ROMs (R43, R89, R220, R270) -/

/-- The fixed micro-program of a unit (R220, R270). -/
def fixedRom : UnitId → List Word
  | .u1 => Rom.u1
  | .u2 => Rom.u2

theorem rom_of_fixedRoms {s : State} (h : s.FixedRoms) (u : UnitId) : s.rom u = fixedRom u := by
  obtain ⟨h1, h2⟩ := h
  cases u
  · exact h1
  · exact h2

/-- A fixed ROM has a first word, and fewer than 256. -/
theorem fixedRom_length_bounds (u : UnitId) : 0 < (fixedRom u).length ∧ (fixedRom u).length < 256 := by
  have h1 : Rom.u1.length = 149 := rfl
  have h2 : Rom.u2.length = 121 := rfl
  cases u <;> simp [fixedRom, h1, h2]

/-- The last word of a fixed ROM is END (R182, R220, R270). -/
theorem decode_fixedRom_last {u : UnitId} {k : Nat} {w : Word} (hw : (fixedRom u)[k]? = some w)
    (hk : k + 1 = (fixedRom u).length) : decode (.rom u) w = .ok .endOp := by
  have hlast : (fixedRom u).getLast? = some 0 := by cases u <;> rfl
  have hend : decode (.rom u) 0 = .ok .endOp := by cases u <;> decide
  rw [List.getLast?_eq_getElem?, ← hk, Nat.add_sub_cancel, hw] at hlast
  obtain rfl : w = 0 := by simpa using hlast
  exact hend

/-- A micro-operation other than END stands before the last word of a fixed ROM, so `upc + 1` is inside it and does not
wrap. -/
theorem advance_inside_fixedRom {u : UnitId} {c : BitVec 8} {w : Word} {i : Instr}
    (hw : (fixedRom u)[c.toNat]? = some w) (hd : decode (.rom u) w = .ok i) (hi : i ≠ .endOp) :
    (c + 1).toNat < (fixedRom u).length := by
  obtain ⟨-, hlen⟩ := fixedRom_length_bounds u
  obtain ⟨hlt, -⟩ := List.getElem?_eq_some_iff.mp hw
  have hne : c.toNat + 1 ≠ (fixedRom u).length := fun he =>
    hi (by simpa [hd] using decode_fixedRom_last hw he)
  rw [BitVec.toNat_add, show (1 : BitVec 8).toNat = 1 from rfl]
  omega

/-- No step changes a ROM (R31, R89). -/
theorem step_keeps_roms {s t : State} (h : step s = .next t) : t.rom1 = s.rom1 ∧ t.rom2 = s.rom2 := by
  cases step_effect h with
  | reset rest _ ht => subst ht; exact ⟨rfl, rfl⟩
  | finish u _ ht => subst ht; simp [State.setUpc]
  | micro u w i t' _ _ _ _ _ hm ht =>
    subst ht
    obtain ⟨-, -, -, h1, h2, -⟩ := microEffect_keepsRest hm
    exact ⟨h1, h2⟩
  | access a rest _ _ ha =>
    cases ha with
    | respond r h => subst h; simp
    | store off n data _ _ h => subst h; simp
    | status off data _ _ h => subst h; simp [writeStatus_eq]
    | illegal off data _ _ _ h => subst h; simp
    | start u _ h => subst h; simp
  | idle _ ht => subst ht; simp

/-- An access leaves the command in progress and every unit, or starts a unit (R145). -/
theorem accessEffect_units {a : Transaction} {s t : State} (h : AccessEffect a s t) :
    (t.running = s.running ∧ ∀ u, t.unit u = s.unit u) ∨ ∃ u, t = s.startUnit u := by
  cases h with
  | respond r h => subst h; exact .inl ⟨rfl, by simp⟩
  | store off n data _ _ h => subst h; exact .inl ⟨rfl, by simp⟩
  | status off data _ _ h => subst h; rw [writeStatus_eq]; exact .inl ⟨rfl, fun u => by cases u <;> rfl⟩
  | illegal off data _ _ _ h => subst h; exact .inl ⟨rfl, by simp⟩
  | start u _ h => exact .inr ⟨u, h⟩

/-- Settles O46: the executing unit's `upc` moves only past words that are not END, and END is the last. -/
theorem upcStaysInsideTheFixedRoms : Obligations.UpcStaysInsideTheFixedRoms := by
  intro s t hf _ h
  have hft : t.FixedRoms := by
    obtain ⟨h1, h2⟩ := step_keeps_roms h
    rwa [State.FixedRoms, h1, h2]
  refine ⟨hft, fun v hv => ?_⟩
  rw [rom_of_fixedRoms hft]
  cases step_effect h with
  | reset rest _ ht => subst ht; simp [State.platformReset, State.reset] at hv
  | finish u _ ht => subst ht; simp at hv
  | micro u w i t' hr hw hd hi _ hm ht =>
    subst ht
    obtain ⟨-, -, hrun, -⟩ := microEffect_keepsRest hm
    rw [hrun, sampled_running, hr] at hv
    obtain rfl := Option.some.inj hv
    rw [State.fetchWord?, rom_of_fixedRoms hf] at hw
    rw [microEffect_upc hm, sampled_unit]
    exact advance_inside_fixedRom hw hd hi
  | access a rest hr _ ha =>
    rcases accessEffect_units ha with ⟨hrun, -⟩ | ⟨u, rfl⟩
    · simp [hrun, hr] at hv
    · obtain rfl : u = v := by simpa using hv
      obtain ⟨hpos, -⟩ := fixedRom_length_bounds u
      simpa using hpos
  | idle hr ht => subst ht; simp [hr] at hv

/-! ### What the units share and what they do not (R39, R47, R75, R151) -/

/-- Settles O50: the same word is fetched, and its body reads only what the two states share. -/
theorem aUnitSeesOnlyItsOwnState : Obligations.AUnitSeesOnlyItsOwnState := by
  intro s s' t u hn hn' hr hsame h
  obtain ⟨hrun, hunit, hrom, hmem⟩ := hsame
  have hr' : s'.running = some u := hrun ▸ hr
  obtain ⟨w, i, hf, hd, he⟩ := step_running_cases hn hr h
  have hf' : s'.fetchWord? u = some w := by rw [State.fetchWord?, ← hrom, ← hunit]; exact hf
  have hstep : step s' = exec i s'.sampled := by
    rw [step_eq_blockStep hn']
    exact blockStep_micro hr' (by simpa [State.fetchWord?] using hf') hd
  rw [hstep]
  have hwf := wellFormed_of_decode_rom hd
  have hsame : SameForUnit u s.sampled s'.sampled := ⟨hrun, by simpa using hunit, by simpa using hrom, hmem⟩
  by_cases hi : i = .endOp
  · subst hi
    rw [exec_endOp (s := s.sampled) hr] at he
    obtain rfl : (s.sampled.setUpc u 0).complete = t := by simpa using he
    refine ⟨_, exec_endOp hr', rfl, by simp [State.setUpc, hunit], ?_, by simpa [State.setUpc] using hmem⟩
    cases u <;> exact hrom
  · obtain ⟨k, hk, hbody⟩ := exec_microBody hwf hi
    rw [hk] at he ⊢
    obtain ⟨v, t₁, hv, -, ht₁, rfl⟩ := microOp_cases he
    obtain rfl : u = v := by simpa [hr] using hv
    obtain ⟨t₁', ht₁', h1, h2, h3, h4⟩ := microBody_sameForUnit hbody hsame ht₁
    refine ⟨_, microOp_next hr' hwf ht₁', by simpa using h1, by simp [h2], ?_, by simpa using h4⟩
    simpa [State.advance, State.setUpc, setUnit_rom] using h3

/-- Settles O49: END and the micro-operations keep everything outside their unit and its part of the window. -/
theorem aUnitLeavesTheOtherAlone : Obligations.AUnitLeavesTheOtherAlone := by
  intro s t u w hn hr hne h
  obtain ⟨x, i, -, hd, he⟩ := step_running_cases hn hr h
  rcases exec_rom_cases (s := s.sampled) hr (wellFormed_of_decode_rom hd) he with ⟨-, rfl⟩ | ⟨-, t', hm, rfl⟩
  · exact ⟨by rw [complete_unit, State.setUpc, setUnit_unit_other _ _ hne, sampled_unit],
      fun a _ => by simp [State.setUpc], by simp [State.setUpc]⟩
  · obtain ⟨hunit, herr, -⟩ := microEffect_keepsRest hm
    refine ⟨by rw [hunit w hne, sampled_unit], fun a ha => ?_, herr⟩
    rw [advance_mem]
    exact microEffect_byte_outside hm (not_inUnit_of_inUnit hne ha)

/-- A word that is no store, or stores inside its unit's STATE region. -/
def storesInState (u : UnitId) (w : Word) : Bool :=
  match decode (.rom u) w with
  | .error _ => true
  | .ok i =>
    match stores i with
    | none => true
    | some (o, n) => o + n ≤ stateBytes u

/-- The fixed programs store to STATE and to nothing else (R39, R220, R270). -/
theorem fixedRom_storesInState (u : UnitId) : (fixedRom u).all (storesInState u) = true := by
  cases u <;> decide

theorem store_inside_state {u : UnitId} {w : Word} {i : Instr} {o n : Nat} (hw : w ∈ fixedRom u)
    (hd : decode (.rom u) w = .ok i) (hs : stores i = some (o, n)) : o + n ≤ stateBytes u := by
  have h := List.all_eq_true.mp (fixedRom_storesInState u) w hw
  simpa [storesInState, hd, hs] using h

/-- With the fixed ROMs, a micro-operation leaves every byte of both BLOCK regions (R39). -/
theorem micro_keeps_block {s t : State} {u : UnitId} {w : Word} {i : Instr} {a : Nat} (hf : s.FixedRoms)
    (hr : s.running = some u) (hw : s.fetchWord? u = some w) (hd : decode (.rom u) w = .ok i) (hi : i ≠ .endOp)
    (he : exec i s.sampled = .next t) (ha : IsBlock a) : t.mem.byte? a = s.mem.byte? a := by
  obtain ⟨k, hk, hbody⟩ := exec_microBody (wellFormed_of_decode_rom hd) hi
  rw [hk] at he
  obtain ⟨v, t', hv, -, ht', rfl⟩ := microOp_cases he
  obtain rfl : u = v := by simpa [hr] using hv
  rw [State.fetchWord?, rom_of_fixedRoms hf] at hw
  rw [advance_mem]
  refine microBody_keepsMem_outside hbody ht' fun o n hs => ?_
  have hstate := store_inside_state (List.mem_of_getElem? hw) hd hs
  unfold IsBlock at ha
  cases u <;> simp only [unitBase, stateBytes] at * <;> omega

/-- Settles O48: a unit stores only to its STATE, and of the port's accesses only a write stores. -/
theorem onlyHostWritesChangeABlock : Obligations.OnlyHostWritesChangeABlock := by
  intro s t a hf hn h hblock hne
  cases step_effect h with
  | reset rest hl _ => simp [State.NoReset, hl] at hn
  | finish u _ ht => subst ht; simp [State.setUpc] at hne
  | micro u w i t' hr hw hd hi he _ _ => exact absurd (micro_keeps_block hf hr hw hd hi he hblock) hne
  | access x rest hr hp ha =>
    refine ⟨hr, ?_⟩
    cases ha with
    | respond r h => subst h; simp at hne
    | store off n data hx _ h =>
      subst h
      refine ⟨off, n, data, rest, hx ▸ hp, ?_⟩
      by_contra hc
      exact hne (byte?_store_outside _ _ (by rw [leBytes_length]; omega))
    | status off data _ _ h => subst h; simp [writeStatus_eq] at hne
    | illegal off data _ _ _ h => subst h; simp at hne
    | start u _ h => subst h; simp at hne
  | idle _ ht => subst ht; simp at hne

/-- Settles O51: of all that a step can do, two writes of the port touch CMD_ERR. -/
theorem onlyTwoWritesChangeCmdErr : Obligations.OnlyTwoWritesChangeCmdErr := by
  intro s t hn h hne
  cases step_effect h with
  | reset rest hl _ => simp [State.NoReset, hl] at hn
  | finish u _ ht => subst ht; simp [State.setUpc] at hne
  | micro u w i t' _ _ _ _ _ hm ht =>
    subst ht
    obtain ⟨-, herr, -⟩ := microEffect_keepsRest hm
    exact absurd herr hne
  | access x rest hr hp ha =>
    refine ⟨hr, ?_⟩
    cases ha with
    | respond r h => subst h; simp at hne
    | store off n data _ _ h => subst h; simp at hne
    | status off data hx ho h =>
      have hbit : (data.setWidth 32).getLsbD 0 = data.getLsbD 0 := by simp
      have herr : t.cmdErr = (s.cmdErr && !data.getLsbD 0) := by rw [h, writeStatus_eq, hbit]; rfl
      rw [herr] at hne ⊢
      cases hb : data.getLsbD 0 with
      | false => exact absurd (by rw [hb]; simp) hne
      | true => exact ⟨off, data, rest, hx ▸ hp, .inr ⟨ho, hb, by simp⟩⟩
    | illegal off data hx ho hi h => subst h; exact ⟨off, data, rest, hx ▸ hp, .inl ⟨ho, hi, rfl⟩⟩
    | start u _ h => subst h; simp at hne
  | idle _ ht => subst ht; simp at hne

/-! ### Uninit (R45, R146, R147, R170, R301, R305) -/

/-- Settles O33: a body answers exactly when its footprint, the sources of Safety.lean, is written. -/
theorem microOpRunsExactlyWhenItsSourcesAreWritten : Obligations.MicroOpRunsExactlyWhenItsSourcesAreWritten := by
  intro s u i hr hwf
  by_cases hi : i = .endOp
  · subst hi
    exact ⟨fun _ => ⟨_, exec_endOp hr⟩,
      fun h => absurd (by simp [State.SourcesWritten, vSources, sSources, loads]) h⟩
  · obtain ⟨k, hk, hbody⟩ := exec_microBody hwf hi
    have hiff : s.SourcesWritten u i ↔ s.FootprintWritten u (footprint i) := Iff.rfl
    rw [hk, hiff]
    rcases microBody_answersIff hbody s with ⟨hw, t, ht⟩ | ⟨hw, l, hl, hu⟩
    · exact ⟨fun _ => ⟨_, microOp_next hr hwf ht⟩, fun h => absurd hw h⟩
    · exact ⟨fun h => absurd h hw, fun _ => ⟨l, microOp_fault hr hwf hl, hu⟩⟩

/-- Settles O10: with its inputs written a command is `startUnit`, whose fields are its laws. -/
theorem compressCommandStartsItsUnit : Obligations.CompressCommandStartsItsUnit := by
  intro u s hin
  refine ⟨s.startUnit u, ?_, by simp, by simp, fun r => by simp, by simp, ?_⟩
  · rw [exec_compressCommand]
    exact (startCommand_next_iff ..).mpr ⟨hin, rfl⟩
  · refine ⟨fun w hw => ?_, by simp, by simp, by simp, by simp, by simp, by simp, by simp⟩
    rw [startUnit_unit_other _ hw]
    cases w <;> rfl

/-- The check of a command's inputs fails at the lowest unwritten one: STATE lies below BLOCK (R305). -/
theorem checkInputs_error {u : UnitId} {s : State} {a : Nat} (ha : IsInput u a) (hna : s.mem.byte? a = none)
    (hlow : ∀ b, IsInput u b → b < a → s.ByteWritten b) : s.checkInputs u = .error (.uninit (.window a)) := by
  have hstate : stateBytes u ≤ 0x40 := by cases u <;> decide
  unfold State.checkInputs
  rcases ha with ⟨h1, h2⟩ | ⟨h1, h2⟩
  · have he : s.loadBytes (unitBase u) (stateBytes u) = .error (.uninit (.window a)) :=
      (loadBytes_error_iff ..).mpr ⟨a, rfl, h1, h2, hna, fun c hc hca => hlow c (.inl ⟨hc, by omega⟩) hca⟩
    rw [he]
    rfl
  · obtain ⟨bs, hbs⟩ : ∃ bs, s.loadBytes (unitBase u) (stateBytes u) = .ok bs :=
      loadBytes_of_written fun k hk => hlow _ (.inl ⟨by omega, by omega⟩) (by omega)
    have he : s.loadBytes (unitBase u + blockOff) blockBytes = .error (.uninit (.window a)) := by
      unfold blockOff blockBytes
      exact (loadBytes_error_iff ..).mpr
        ⟨a, rfl, h1, by omega, hna, fun c hc hca => hlow c (.inr ⟨hc, by omega⟩) hca⟩
    rw [hbs, he]
    rfl

/-- Settles O11: the check of the inputs comes before the start. -/
theorem compressCommandFaultsAtTheLowestUnwrittenByte : Obligations.CompressCommandFaultsAtTheLowestUnwrittenByte := by
  intro u s a ha hna hlow
  rw [exec_compressCommand, startCommand, checkInputs_error ha hna hlow]

/-- Settles O35: the load of a legal read fails at its lowest unwritten byte. -/
theorem hostReadFaultsAtTheLowestUnwrittenByte : Obligations.HostReadFaultsAtTheLowestUnwrittenByte := by
  intro s off n rest k hs hl hk hna hlow
  have he : ({ s.sampled with pending := rest } : State).loadBytes off.toNat n =
      .error (.uninit (.window (off.toNat + k))) := by
    refine (loadBytes_error_iff ..).mpr ⟨_, rfl, by omega, by omega, hna, fun c h1 h2 => ?_⟩
    obtain ⟨j, rfl⟩ := Nat.exists_eq_add_of_le h1
    exact hlow j (by omega)
  rw [step_eq_hostAccess hs]
  simp only [hostAccess, hostRead, (dataAccess_iff ..).mpr hl, if_true, he]

end Sys2Proof.Machine
end

section
/-! PROOFS. Memory as the host sees it (20_memory.md): what the bytes of a value and the value of bytes are, then a legal
data access as one equation of `step` for each direction; then the obligations of this family. -/

namespace Sys2Proof.Machine

/-! ### Bytes and values (R72) -/

/-- A little-endian value is below 256 to the number of its bytes. -/
theorem leValue_toNat_lt (w : Nat) (bs : List Byte) : (leValue w bs).toNat < 2 ^ (8 * bs.length) := by
  refine Nat.lt_pow_two_of_testBit _ fun i hi => ?_
  have hnone : bs[i / 8]? = none := List.getElem?_eq_none (by omega)
  rw [BitVec.testBit_toNat, leValue_getLsbD, hnone]
  simp

/-- Byte `k` of a little-endian value wide enough for its bytes is the byte at position `k`. -/
theorem leValue_extractLsb' {w : Nat} {bs : List Byte} (hw : 8 * bs.length ≤ w) {k : Nat} (hk : k < bs.length) :
    (leValue w bs).extractLsb' (8 * k) 8 = bs[k] := by
  ext i hi
  have hdiv : (8 * k + i) / 8 = k := by omega
  have hmod : (8 * k + i) % 8 = i := by omega
  have hlt : 8 * k + i < w := by omega
  rw [BitVec.getElem_extractLsb', leValue_getLsbD, hdiv, hmod, List.getElem?_eq_getElem hk]
  simp [hlt, BitVec.getLsbD_eq_getElem hi]

/-- The value of the `n` low bytes of `x` is `x` modulo 256 to the `n`. -/
theorem leValue_leBytes {w : Nat} (x : BitVec w) (n : Nat) :
    (leValue w (leBytes x n)).toNat = x.toNat % 2 ^ (8 * n) := by
  refine Nat.eq_of_testBit_eq fun i => ?_
  rw [BitVec.testBit_toNat, leValue_getLsbD, Nat.testBit_mod_two_pow, BitVec.testBit_toNat]
  by_cases hi : i < 8 * n
  · have hk : i / 8 < (leBytes x n).length := by rw [leBytes_length]; omega
    have hbit : 8 * (i / 8) + i % 8 = i := Nat.div_add_mod i 8
    rw [List.getElem?_eq_getElem hk, Option.getD_some, leBytes_getElem, BitVec.getLsbD_extractLsb', hbit]
    by_cases hw : i < w
    · simp [hi, hw, Nat.mod_lt]
    · simp [hi, BitVec.getLsbD_of_ge x i (by omega)]
  · have hnone : (leBytes x n)[i / 8]? = none := List.getElem?_eq_none (by rw [leBytes_length]; omega)
    simp [hnone, hi]

/-- Byte `k` of a value shifted right by `j` bytes is its byte `j + k`. -/
theorem extractLsb'_ushiftRight_bytes {w : Nat} (x : BitVec w) (j k : Nat) :
    (x >>> (8 * j)).extractLsb' (8 * k) 8 = x.extractLsb' (8 * (j + k)) 8 := by
  ext i hi
  simp [Nat.mul_add, Nat.add_assoc]

/-! ### Legal data accesses (R76, R140, R141) -/

/-- A legal data read, its bytes written: one step that answers their little-endian value (R140). -/
theorem step_dataRead {s : State} {off : BitVec 9} {n : Nat} {rest : List Transaction} {bs : List Byte}
    (hs : s.Serves (.read off n) rest) (hl : LegalData off.toNat n) (hn : bs.length = n)
    (hb : ∀ k (h : k < bs.length), s.mem.byte? (off.toNat + k) = some bs[k]) :
    step s = .next (s.answered rest (.okayData n (leValue 128 bs))) := by
  have hload : (s.accepted rest).loadBytes off.toNat n = .ok bs := (loadBytes_ok_iff ..).mpr ⟨hn, hb⟩
  rw [step_eq_hostAccess hs, ← State.accepted]
  simp only [hostAccess, hostRead, (dataAccess_iff ..).mpr hl, if_true, hload]
  rfl

/-- A legal data write: one step that stores the low bytes of its data and answers OKAY (R141). -/
theorem step_dataWrite {s : State} {off : BitVec 9} {n : Nat} {data : BitVec 128} {rest : List Transaction}
    (hs : s.Serves (.write off n data) rest) (hl : LegalData off.toNat n) :
    step s = .next { s.answered rest .okay with mem := s.mem.store off.toNat (leBytes data n) } := by
  rw [step_eq_hostAccess hs]
  simp only [hostAccess, hostWrite, (dataAccess_iff ..).mpr hl, if_true]
  rfl

/-- Byte `k` of the stored bytes of a value is its bits `8k + 7` to `8k`. -/
theorem byte?_store_leBytes {w : Nat} (m : Memory) (a : Nat) (x : BitVec w) {n k : Nat} (hk : k < n) :
    (m.store a (leBytes x n)).byte? (a + k) = some (x.extractLsb' (8 * k) 8) := by
  have hk' : k < (leBytes x n).length := by rwa [leBytes_length]
  rw [byte?_store_inside m a _ hk', leBytes_getElem]

/-! ### The obligations -/

/-- Settles O34: a legal access has at most 16 bytes, so their value fits in the 128 bits of a response. -/
theorem hostReadReturnsTheBytes : Obligations.HostReadReturnsTheBytes := by
  intro s off n rest b hs hl hb
  obtain ⟨bs, rfl, hbs⟩ : ∃ bs : List Byte, bs.length = n ∧ ∀ k (h : k < bs.length), bs[k] = b k :=
    ⟨List.ofFn fun k : Fin n => b k, by simp, by simp⟩
  have hfit : 8 * bs.length ≤ 128 := by
    obtain ⟨hsize, -⟩ := hl
    omega
  refine ⟨leValue 128 bs, step_dataRead hs hl rfl fun k hk => ?_, leValue_toNat_lt 128 bs, fun k hk => ?_⟩
  · rw [hb k hk, hbs k hk]
  · rw [leValue_extractLsb' hfit hk, hbs k hk]

/-- Settles O36: the memory after the step is the store of the data's low bytes. -/
theorem hostWriteStoresTheBytes : Obligations.HostWriteStoresTheBytes := by
  intro s off n data rest hs hl
  refine ⟨_, step_dataWrite hs hl, fun k hk => byte?_store_leBytes _ _ data hk, fun a ha => ?_⟩
  exact byte?_store_outside _ _ (by rwa [leBytes_length])

/-- Settles O37: the bytes that the read finds are the `m` low bytes of the data shifted right by `j` bytes. -/
theorem readAfterWriteGivesThatPart : Obligations.ReadAfterWriteGivesThatPart := by
  intro s off off' n m j data rest hline hrun hpend hl hl' hoff hjm
  have hwrite := step_dataWrite (s := s) ⟨by simp [State.NoReset, hline], hrun, hpend⟩ hl
  have hbytes : ∀ k (h : k < (leBytes (data >>> (8 * j)) m).length),
      (s.mem.store off.toNat (leBytes data n)).byte? (off'.toNat + k) = some (leBytes (data >>> (8 * j)) m)[k] := by
    intro k hk
    have hkm : k < m := by rwa [leBytes_length] at hk
    have hjk : off'.toNat + k = off.toNat + (j + k) := by omega
    rw [hjk, byte?_store_leBytes _ _ _ (by omega), leBytes_getElem, extractLsb'_ushiftRight_bytes]
  have hread : step { s.answered (.read off' m :: rest) .okay with mem := s.mem.store off.toNat (leBytes data n) } =
      .next _ :=
    step_dataRead ⟨by simp [State.NoReset, State.answered, hline], hrun, rfl⟩ hl' (leBytes_length ..) hbytes
  exact ⟨_, _, (run_succ hwrite).trans (run_succ hread), rfl, leValue_leBytes ..⟩

/-- Settles O45: of the five things a step can do, none touches a ROM. -/
theorem noStepWritesARom : Obligations.NoStepWritesARom := fun _ _ h => step_keeps_roms h

end Sys2Proof.Machine
end

section
/-! PROOFS. The encoding (30_encoding.md): what each format reads and when it answers, then decoding as one equivalence,
`decode_eq_ok_iff`, and all that makes a step refuse, `step_refused_cases`; then the obligations of this family. -/

namespace Sys2Proof.Machine

/-! ### What a format reads from its own word (R111, R113) -/

@[simp] theorem formatF0_pack (uop : BitVec 8) (i : Instr) : formatF0 (pack uop 0 0 0 0#12) i = .ok i := by
  simp [formatF0]

@[simp] theorem formatFL_pack (uop : BitVec 8) (d : Reg) (imm : BitVec 12)
    (f : Reg → BitVec 12 → Except DecodeError Instr) : formatFL (pack uop d 0 0 imm) f = f d imm := by
  simp [formatFL]

@[simp] theorem formatFS_pack (uop : BitVec 8) (n : Reg) (imm : BitVec 12)
    (f : Reg → BitVec 12 → Except DecodeError Instr) : formatFS (pack uop 0 n 0 imm) f = f n imm := by
  simp [formatFS]

@[simp] theorem formatF2_pack (uop : BitVec 8) (d n : Reg) (f : Reg → Reg → Instr) :
    formatF2 (pack uop d n 0 0#12) f = .ok (f d n) := by
  simp [formatF2]

@[simp] theorem formatF2I_pack (uop : BitVec 8) (d n : Reg) (imm : BitVec 12)
    (f : Reg → Reg → BitVec 12 → Except DecodeError Instr) : formatF2I (pack uop d n 0 imm) f = f d n imm := by
  simp [formatF2I]

@[simp] theorem formatF3_pack (uop : BitVec 8) (d n m : Reg) (f : Reg → Reg → Reg → Instr) :
    formatF3 (pack uop d n m 0#12) f = .ok (f d n m) := by
  simp [formatF3]

/-- An index that the 12 bits of IMM can hold is read back from them. -/
theorem indexImm_ofNat {n : Nat} (hn : n ≤ 2 ^ 12) (k : Fin n) (f : Fin n → Instr) :
    indexImm n (BitVec.ofNat 12 k.val) f = .ok (f k) := by
  have hk : (BitVec.ofNat 12 k.val).toNat = k.val := by
    rw [BitVec.toNat_ofNat, Nat.mod_eq_of_lt (k.isLt.trans_le hn)]
  simp [indexImm, hk]

/-! ### The words a format answers for: the unused fields are 0 (R111, R116 b, R116 c) -/

/-- A word with these fields is these fields packed (R110). -/
theorem eq_pack_of_fields {w : Word} {k : Nat} {d n m : Reg} {imm : BitVec 12} (hu : (uopOf w).toNat = k)
    (hd : dOf w = d) (hn : nOf w = n) (hm : mOf w = m) (hi : immOf w = imm) :
    w = pack (BitVec.ofNat 8 k) d n m imm := by
  rw [← hu, ← hd, ← hn, ← hm, ← hi, BitVec.ofNat_toNat, BitVec.setWidth_eq, pack_fields]

section
variable {w : Word} {k : Nat} {i j : Instr} (hu : (uopOf w).toNat = k)
include hu

theorem formatF0_ok (h : formatF0 w j = .ok i) : w = pack (BitVec.ofNat 8 k) 0 0 0 0 ∧ j = i := by
  unfold formatF0 at h
  split at h
  · next hz =>
    obtain ⟨hd, hn, hm, hi⟩ := hz
    exact ⟨eq_pack_of_fields hu hd hn hm hi, by simpa using h⟩
  · simp at h

theorem formatFL_ok {f : Reg → BitVec 12 → Except DecodeError Instr} (h : formatFL w f = .ok i) :
    ∃ d imm, w = pack (BitVec.ofNat 8 k) d 0 0 imm ∧ f d imm = .ok i := by
  unfold formatFL at h
  split at h
  · next hz =>
    obtain ⟨hn, hm⟩ := hz
    exact ⟨_, _, eq_pack_of_fields hu rfl hn hm rfl, h⟩
  · simp at h

theorem formatFS_ok {f : Reg → BitVec 12 → Except DecodeError Instr} (h : formatFS w f = .ok i) :
    ∃ n imm, w = pack (BitVec.ofNat 8 k) 0 n 0 imm ∧ f n imm = .ok i := by
  unfold formatFS at h
  split at h
  · next hz =>
    obtain ⟨hd, hm⟩ := hz
    exact ⟨_, _, eq_pack_of_fields hu hd rfl hm rfl, h⟩
  · simp at h

theorem formatF2_ok {f : Reg → Reg → Instr} (h : formatF2 w f = .ok i) :
    ∃ d n, w = pack (BitVec.ofNat 8 k) d n 0 0 ∧ f d n = i := by
  unfold formatF2 at h
  split at h
  · next hz =>
    obtain ⟨hm, hi⟩ := hz
    exact ⟨_, _, eq_pack_of_fields hu rfl rfl hm hi, by simpa using h⟩
  · simp at h

theorem formatF2I_ok {f : Reg → Reg → BitVec 12 → Except DecodeError Instr} (h : formatF2I w f = .ok i) :
    ∃ d n imm, w = pack (BitVec.ofNat 8 k) d n 0 imm ∧ f d n imm = .ok i := by
  unfold formatF2I at h
  split at h
  · next hm => exact ⟨_, _, _, eq_pack_of_fields hu rfl rfl hm rfl, h⟩
  · simp at h

theorem formatF3_ok {f : Reg → Reg → Reg → Instr} (h : formatF3 w f = .ok i) :
    ∃ d n m, w = pack (BitVec.ofNat 8 k) d n m 0 ∧ f d n m = i := by
  unfold formatF3 at h
  split at h
  · next hi => exact ⟨_, _, _, eq_pack_of_fields hu rfl rfl rfl hi, by simpa using h⟩
  · simp at h

end

theorem indexImm_ok {n : Nat} {imm : BitVec 12} {f : Fin n → Instr} {i : Instr} (h : indexImm n imm f = .ok i) :
    ∃ k : Fin n, imm = BitVec.ofNat 12 k.val ∧ f k = i := by
  unfold indexImm at h
  split at h
  · next hk => exact ⟨⟨imm.toNat, hk⟩, by simp, by simpa using h⟩
  · simp at h

/-! ### Decoding (R101, R102, R114 to R117) -/

theorem decodeUop_encode {i : Instr} (hi : i.isCommand = false) : decodeUop (encode i) = .ok i := by
  cases i with
  | nop | sha1Compress | sha256Compress => simp [Instr.isCommand] at hi
  | sgetl d n lane => simp [decodeUop, encode, indexImm_ofNat (n := 4) (by decide)]
  | vdupk d k => simp [decodeUop, encode, indexImm_ofNat (n := 4) (by decide)]
  | vldk d g => simp [decodeUop, encode, indexImm_ofNat (n := 16) (by decide)]
  | _ => simp [decodeUop, encode]

/-- A word is the word of the micro-operation it decodes to: every field is an operand or 0 (R111, R114). -/
theorem encode_of_decodeUop {w : Word} {i : Instr} (h : decodeUop w = .ok i) :
    i.isCommand = false ∧ encode i = w := by
  unfold decodeUop at h
  split at h
  case h_1 hu =>
    obtain ⟨rfl, rfl⟩ := formatF0_ok hu h
    exact ⟨rfl, rfl⟩
  case h_2 hu | h_4 hu =>
    obtain ⟨d, imm, rfl, hf⟩ := formatFL_ok hu h
    cases hf
    exact ⟨rfl, rfl⟩
  case h_3 hu | h_5 hu =>
    obtain ⟨n, imm, rfl, hf⟩ := formatFS_ok hu h
    cases hf
    exact ⟨rfl, rfl⟩
  case h_6 hu | h_7 hu | h_9 hu | h_17 hu | h_19 hu | h_22 hu =>
    obtain ⟨d, n, rfl, rfl⟩ := formatF2_ok hu h
    exact ⟨rfl, rfl⟩
  case h_8 hu =>
    obtain ⟨d, n, imm, rfl, hf⟩ := formatF2I_ok hu h
    obtain ⟨lane, rfl, rfl⟩ := indexImm_ok hf
    exact ⟨rfl, rfl⟩
  case h_12 hu | h_13 hu =>
    obtain ⟨d, imm, rfl, hf⟩ := formatFL_ok hu h
    obtain ⟨k, rfl, rfl⟩ := indexImm_ok hf
    exact ⟨rfl, rfl⟩
  case h_10 hu | h_11 hu | h_14 hu | h_15 hu | h_16 hu | h_18 hu | h_20 hu | h_21 hu | h_23 hu =>
    obtain ⟨d, n, m, rfl, rfl⟩ := formatF3_ok hu h
    exact ⟨rfl, rfl⟩
  case h_24 => simp at h

theorem decodeUop_eq_ok_iff {w : Word} {i : Instr} : decodeUop w = .ok i ↔ i.isCommand = false ∧ encode i = w :=
  ⟨encode_of_decodeUop, fun ⟨hi, hw⟩ => hw ▸ decodeUop_encode hi⟩

theorem isCommand_cases {i : Instr} (h : i.isCommand = true) :
    i = .nop ∨ i = .sha1Compress ∨ i = .sha256Compress := by
  cases i with
  | nop | sha1Compress | sha256Compress => simp
  | _ => simp [Instr.isCommand] at h

theorem decodeCommand_eq_ok_iff {w : Word} {i : Instr} :
    decodeCommand w = .ok i ↔ i.isCommand = true ∧ encode i = w := by
  constructor
  · intro h
    have hw : w = BitVec.ofNat 32 w.toNat := by simp
    unfold decodeCommand at h
    split at h
    case h_4 => simp at h
    all_goals
      next hn =>
        cases h
        rw [hw, hn]
        exact ⟨rfl, rfl⟩
  · rintro ⟨hi, rfl⟩
    rcases isCommand_cases hi with rfl | rfl | rfl <;> rfl

theorem checkUnit_eq_ok_iff {u : UnitId} {i j : Instr} :
    checkUnit u j = .ok i ↔ j.wellFormed (.rom u) = true ∧ j = i := by
  unfold checkUnit
  split
  · split <;> simp [Instr.wellFormed, *]
  · simp [Instr.wellFormed, *]

theorem isCommand_of_wellFormed_rom {u : UnitId} {i : Instr} (h : i.wellFormed (.rom u) = true) :
    i.isCommand = false := by
  cases i with
  | nop | sha1Compress | sha256Compress => simp [Instr.wellFormed, Instr.runsOn] at h
  | _ => rfl

/-- In each slot a word is the instruction `i` exactly when `i` may stand there and the word is its encoding. -/
theorem decode_eq_ok_iff {slot : Slot} {w : Word} {i : Instr} :
    decode slot w = .ok i ↔ i.wellFormed slot = true ∧ encode i = w := by
  cases slot with
  | cmd => exact decodeCommand_eq_ok_iff
  | rom u =>
    simp only [decode, decodeMicro]
    constructor
    · intro h
      split at h
      · next j hj =>
        obtain ⟨hwf, rfl⟩ := checkUnit_eq_ok_iff.mp h
        obtain ⟨-, hw⟩ := decodeUop_eq_ok_iff.mp hj
        exact ⟨hwf, hw⟩
      · simp at h
    · rintro ⟨hwf, hw⟩
      rw [decodeUop_eq_ok_iff.mpr ⟨isCommand_of_wellFormed_rom hwf, hw⟩]
      exact checkUnit_eq_ok_iff.mpr ⟨hwf, rfl⟩

/-- Settles O1: one direction of `decode_eq_ok_iff`. -/
theorem decodeUndoesEncode : Obligations.DecodeUndoesEncode := fun _ _ hwf => decode_eq_ok_iff.mpr ⟨hwf, rfl⟩

/-- Settles O2: the other direction of `decode_eq_ok_iff`. -/
theorem decodedWordIsTheEncoding : Obligations.DecodedWordIsTheEncoding := fun _ _ _ h => decode_eq_ok_iff.mp h

/-- An instruction's own word decodes to it exactly where the instruction may stand. -/
theorem decode_encode_iff {slot : Slot} {i : Instr} : decode slot (encode i) = .ok i ↔ i.wellFormed slot = true := by
  simp [decode_eq_ok_iff]

/-! ### The offsets of loads and stores (R77, R116 d) -/

theorem decode_vld_iff (u : UnitId) (d : Reg) (imm : BitVec 12) :
    decode (.rom u) (pack 0x01 d 0 0 imm) = .ok (.vld d imm) ↔
      imm.toNat + 16 ≤ stateBytes u ∨ (0x40 ≤ imm.toNat ∧ imm.toNat + 16 ≤ 0x80) :=
  (decode_encode_iff (i := .vld d imm)).trans (localLegal_iff ..)

theorem decode_vst_iff (u : UnitId) (imm : BitVec 12) (n : Reg) :
    decode (.rom u) (pack 0x02 0 n 0 imm) = .ok (.vst imm n) ↔
      imm.toNat + 16 ≤ stateBytes u ∨ (0x40 ≤ imm.toNat ∧ imm.toNat + 16 ≤ 0x80) :=
  (decode_encode_iff (i := .vst imm n)).trans (localLegal_iff ..)

theorem decode_sld_iff (u : UnitId) (d : Reg) (imm : BitVec 12) :
    decode (.rom u) (pack 0x03 d 0 0 imm) = .ok (.sld d imm) ↔
      imm.toNat + 4 ≤ stateBytes u ∨ (0x40 ≤ imm.toNat ∧ imm.toNat + 4 ≤ 0x80) :=
  (decode_encode_iff (i := .sld d imm)).trans (localLegal_iff ..)

theorem decode_sst_iff (u : UnitId) (imm : BitVec 12) (n : Reg) :
    decode (.rom u) (pack 0x04 0 n 0 imm) = .ok (.sst imm n) ↔
      imm.toNat + 4 ≤ stateBytes u ∨ (0x40 ≤ imm.toNat ∧ imm.toNat + 4 ≤ 0x80) :=
  (decode_encode_iff (i := .sst imm n)).trans (localLegal_iff ..)

/-- Settles O5: the last legal offset of a region is its size less the 16 or 4 bytes accessed. -/
theorem legalOffsetsOfLoadsAndStores : Obligations.LegalOffsetsOfLoadsAndStores := by
  intro r imm
  refine ⟨(decode_vld_iff ..).trans ?_, (decode_vst_iff ..).trans ?_, (decode_vld_iff ..).trans ?_,
    (decode_vst_iff ..).trans ?_, (decode_sld_iff ..).trans ?_, (decode_sst_iff ..).trans ?_,
    (decode_sld_iff ..).trans ?_, (decode_sst_iff ..).trans ?_⟩
  all_goals
    simp only [stateBytes]
    omega

/-! ### What refuses a step (R116, R301) -/

theorem exec_command_ne_refused {i : Instr} (hi : i.isCommand = true) (s : State) (r : Refusal) :
    exec i s ≠ .refused r := by
  have hstart : ∀ u, startCommand u s ≠ .refused r := by
    intro u
    unfold startCommand
    split <;> simp
  rcases isCommand_cases hi with rfl | rfl | rfl
  · simp [exec, execNop]
  · exact hstart .u1
  · exact hstart .u2

/-- The port gives every access an answer or the fault Uninit: it refuses none (R140 to R149). -/
theorem hostAccess_ne_refused (a : Transaction) (s : State) (r : Refusal) : hostAccess a s ≠ .refused r := by
  cases a with
  | read off n =>
    simp only [hostAccess, hostRead, busError]
    split
    · split <;> simp
    · split <;> simp
  | write off n data =>
    have hcommand : command (data.setWidth 32) s ≠ .refused r := by
      unfold command
      split
      · next i hi =>
        obtain ⟨hwf, -⟩ := decode_eq_ok_iff.mp hi
        exact exec_command_ne_refused hwf s r
      · simp
    simp only [hostAccess, hostWrite, busError]
    split
    · simp
    · split
      · exact hcommand
      · split <;> simp

/-- The executing unit refuses no instruction that may stand in its ROM (R117). -/
theorem exec_rom_ne_refused {u : UnitId} {i : Instr} {s : State} (hr : s.running = some u)
    (hwf : i.wellFormed (.rom u) = true) (r : Refusal) : exec i s ≠ .refused r := by
  by_cases hi : i = .endOp
  · subst hi
    simp [exec_endOp hr]
  · obtain ⟨k, hk, -⟩ := exec_microBody hwf hi
    rw [hk]
    cases he : k s u with
    | ok t => simp [microOp_next hr hwf he]
    | error f => simp [microOp_fault hr hwf he]

/-- Why unit `u` refuses its turn, by its ROM and its `upc`: `upc` is past the ROM's end, or the word there is
reserved. -/
inductive FetchRefusal (u : UnitId) (rom : List Word) (upc : BitVec 8) : Refusal → Prop where
  | noWord (hf : rom[upc.toNat]? = none) : FetchRefusal u rom upc (.noRomWord u upc)
  | reserved (w : Word) (e : DecodeError) (hf : rom[upc.toNat]? = some w) (hd : decode (.rom u) w = .error e) :
      FetchRefusal u rom upc (.reserved u upc)

theorem microStep_refused_iff {u : UnitId} {s : State} {r : Refusal} (hr : s.running = some u) :
    microStep u s = .refused r ↔ FetchRefusal u (s.rom u) (s.unit u).upc r := by
  constructor
  · intro h
    unfold microStep at h
    split at h
    · next hf =>
      cases h
      exact .noWord hf
    · next w hf =>
      split at h
      · next i hi => exact absurd h (exec_rom_ne_refused hr (wellFormed_of_decode_rom hi) r)
      · next e hd =>
        cases h
        exact .reserved w e hf hd
  · intro h
    cases h with
    | noWord hf => simp [microStep, State.fetchWord?, hf]
    | reserved w e hf hd => simp [microStep, State.fetchWord?, hf, hd]

/-- With reset not asserted and a unit executing, a step is refused exactly when that unit's fetch is. -/
theorem step_refused_iff_of_running {s : State} {u : UnitId} {r : Refusal} (hn : s.NoReset)
    (hr : s.running = some u) : step s = .refused r ↔ FetchRefusal u (s.rom u) (s.unit u).upc r := by
  have hr' : s.sampled.running = some u := hr
  have hstep : step s = microStep u s.sampled := by simp [step_eq_blockStep hn, blockStep, hr]
  rw [hstep, microStep_refused_iff hr', sampled_rom, sampled_unit]

/-- Only an executing unit's fetch refuses a step: a reset, the port and an idle step do not. -/
theorem step_refused_cases {s : State} {r : Refusal} (h : step s = .refused r) :
    ∃ u, s.running = some u ∧ FetchRefusal u (s.rom u) (s.unit u).upc r := by
  have hn : s.NoReset := by
    intro hl
    obtain ⟨rest, hl⟩ := List.head?_eq_some_iff.mp hl
    simp [step_eq_reset hl] at h
  cases hr : s.running with
  | some u => exact ⟨u, rfl, (step_refused_iff_of_running hn hr).mp h⟩
  | none =>
    cases hp : s.pending with
    | nil => simp [step_eq_blockStep hn, blockStep_idle (s := s.sampled) hr hp] at h
    | cons a rest =>
      rw [step_eq_hostAccess ⟨hn, hr, hp⟩] at h
      exact absurd h (hostAccess_ne_refused _ _ r)

/-- Every word of a fixed ROM is an instruction of its unit (R116, R220, R270). -/
theorem fixedRom_decodes (u : UnitId) : (fixedRom u).all (fun w => (decode (.rom u) w).isOk) = true := by
  cases u <;> decide

/-- Settles O47: the fetch is inside the fixed ROM, and no word of it is reserved. -/
theorem fixedRomsAreNeverRefused : Obligations.FixedRomsAreNeverRefused := by
  intro s r hf hupc h
  obtain ⟨u, hr, hx⟩ := step_refused_cases h
  cases hx with
  | noWord hw =>
    have hlt := hupc u hr
    rw [List.getElem?_eq_none_iff] at hw
    omega
  | reserved w e hw hd =>
    rw [rom_of_fixedRoms hf] at hw
    have hok := List.all_eq_true.mp (fixedRom_decodes u) w (List.mem_of_getElem? hw)
    simp [hd, Except.isOk, Except.toBool] at hok

/-- Settles O8: a reserved word is one of the two refusals of a fetch. -/
theorem reservedWordIsRefused : Obligations.ReservedWordIsRefused := fun _ _ w e hn hr hw hd =>
  (step_refused_iff_of_running hn hr).mpr (.reserved w e hw hd)

/-! ### The command words and the listed words (R101, R102, R110 to R117) -/

/-- Settles O3: the eleven words are closed terms, which the decoder evaluates. -/
theorem listedWordsDecode : Obligations.ListedWordsDecode := by
  unfold Obligations.ListedWordsDecode
  decide

/-- A command's word, in CMD, is its encoding and no other (R101). -/
theorem decode_cmd_eq_ok_iff {i : Instr} (hi : i.isCommand = true) {w : Word} :
    decode .cmd w = .ok i ↔ w = encode i := by
  rw [decode_eq_ok_iff, Instr.wellFormed, eq_comm (a := encode i)]
  simp [hi]

theorem legalCommandWord_encode {i : Instr} (hi : i.isCommand = true) : LegalCommandWord (encode i) := by
  rcases isCommand_cases hi with rfl | rfl | rfl <;> unfold LegalCommandWord <;> decide

/-- A CMD word decodes exactly when it is legal (R102). -/
theorem exists_decode_cmd_iff (w : Word) : (∃ i, decode .cmd w = .ok i) ↔ LegalCommandWord w := by
  constructor
  · rintro ⟨i, h⟩
    obtain ⟨hi, rfl⟩ := decode_eq_ok_iff.mp h
    exact legalCommandWord_encode hi
  · intro hl
    cases h : decode .cmd w with
    | ok i => exact ⟨i, rfl⟩
    | error e => exact absurd hl (not_legalCommandWord_of_decode_error h)

/-- Settles O4: the three words are the encodings of the three commands. -/
theorem commandWordsAreTheThree : Obligations.CommandWordsAreTheThree := fun w =>
  ⟨decode_cmd_eq_ok_iff rfl, decode_cmd_eq_ok_iff rfl, decode_cmd_eq_ok_iff rfl, exists_decode_cmd_iff w⟩

end Sys2Proof.Machine
end

section
/-! PROOFS. The host interface (40_host_interface.md): what the port does with an access that is no legal data access, in
one equation each for a control register read, a CMD write, a STATUS write and a bus error; then the obligations of
this family. -/

namespace Sys2Proof.Machine

/-! ### Control registers and bus errors (R76, R141 to R144) -/

/-- The control registers lie above the last data region (R70). -/
theorem dataAccess_of_ctrlAccess {o n : Nat} (h : ctrlAccess o n = true) : dataAccess o n = false := by
  rw [Bool.eq_false_iff, ne_eq, dataAccess_iff]
  rintro ⟨-, hregion⟩
  rw [ctrlAccess_iff] at h
  unfold BytesInOneRegion at hregion
  omega

/-- A control register read answers the register (R143). -/
theorem hostRead_ctrl {o n : Nat} (h : ctrlAccess o n = true) (s : State) :
    hostRead o n s = .next (s.respond (.okayData n ((ctrlRead o s).setWidth 128))) := by
  simp [hostRead, dataAccess_of_ctrlAccess h, h]

/-- A read of neither kind is a bus error (R140, R142). -/
theorem hostRead_busError {o n : Nat} (hd : ¬ LegalData o n) (hc : ¬ ctrlAccess o n = true) (s : State) :
    hostRead o n s = busError s := by
  rw [← dataAccess_iff] at hd
  simp [hostRead, hd, hc]

/-- A 4-byte write to CMD is a command (R141, R145). -/
theorem hostWrite_cmd (data : BitVec 128) (s : State) : hostWrite 0x100 4 data s = command (data.setWidth 32) s := rfl

/-- A 4-byte write to STATUS (R141, R144). -/
theorem hostWrite_status (data : BitVec 128) (s : State) :
    hostWrite 0x104 4 data s = .next ((s.writeStatus (data.setWidth 32)).respond .okay) := rfl

/-- Any other write that is no data access is a bus error, a write to CAPS too (R142). -/
theorem hostWrite_busError {o n : Nat} (hd : ¬ LegalData o n) (hc : ¬ (n = 4 ∧ (o = 0x100 ∨ o = 0x104)))
    (data : BitVec 128) (s : State) : hostWrite o n data s = busError s := by
  have hcmd : ¬ (ctrlAccess o n = true ∧ o = cmdOff) := by
    rw [ctrlAccess_iff, cmdOff]
    omega
  have hstatus : ¬ (ctrlAccess o n = true ∧ o = statusOff) := by
    rw [ctrlAccess_iff, statusOff]
    omega
  rw [← dataAccess_iff] at hd
  simp [hostWrite, hd, hcmd, hstatus]

/-- With the port free, a 4-byte write at CMD makes the step that command's (R141, R145). -/
theorem step_cmdWrite {s : State} {off : BitVec 9} {data : BitVec 128} {rest : List Transaction}
    (hs : s.Serves (.write off 4 data) rest) (ho : off.toNat = 0x100) :
    step s = command (data.setWidth 32) (s.accepted rest) := by
  rw [step_eq_hostAccess hs, hostAccess, ho, hostWrite_cmd, State.accepted]

/-- With the port free, a control register read answers it and changes nothing else (R143). -/
theorem step_ctrlRead {s : State} {off : BitVec 9} {rest : List Transaction} (hs : s.Serves (.read off 4) rest)
    (ho : ctrlAccess off.toNat 4 = true) :
    step s = .next (s.answered rest (.okayData 4 ((ctrlRead off.toNat s).setWidth 128))) := by
  rw [step_eq_hostAccess hs, hostAccess, hostRead_ctrl ho]
  rfl

/-- With the port free, a STATUS write keeps CMD_ERR where data bit 0 is 0, and changes nothing else (R144). -/
theorem step_statusWrite {s : State} {data : BitVec 128} {rest : List Transaction}
    (hs : s.Serves (.write 0x104 4 data) rest) :
    step s = .next { s.answered rest .okay with cmdErr := s.cmdErr && !data.getLsbD 0 } := by
  have ho : (0x104 : BitVec 9).toNat = 0x104 := rfl
  have hbit : (data.setWidth 32).getLsbD 0 = data.getLsbD 0 := by simp
  rw [step_eq_hostAccess hs, hostAccess, ho, hostWrite_status, writeStatus_eq, hbit]
  rfl

@[simp] theorem setUpc_unit_same (s : State) (u : UnitId) (x : BitVec 8) :
    (s.setUpc u x).unit u = { s.unit u with upc := x } :=
  setUnit_unit_same ..

/-- END leaves all but its unit, the command in progress and the response (R182). -/
theorem keepsRest_endOp (u : UnitId) (s : State) :
    KeepsRest u { s with running := none, responses := .okay :: s.responses } (s.setUpc u 0).complete := by
  refine ⟨fun w hw => ?_, ?_⟩
  · rw [complete_unit, State.setUpc, setUnit_unit_other _ _ hw]
    cases w <;> rfl
  · simp [State.setUpc]

/-! ### The obligations -/

/-- Settles O38: an access of neither kind reaches the last branch of its direction. -/
theorem busErrorChangesNothing : Obligations.BusErrorChangesNothing := by
  intro s off n data rest hd
  constructor
  · intro hs hc
    rw [step_eq_hostAccess hs, hostAccess, hostRead_busError hd (mt (ctrlAccess_iff ..).mp hc)]
    rfl
  · intro hs hc
    rw [step_eq_hostAccess hs, hostAccess, hostWrite_busError hd hc]
    rfl

/-- Settles O41: an illegal word does not decode, which leaves the error branch of `command`. -/
theorem illegalCommandSetsCmdErrAndNothingElse : Obligations.IllegalCommandSetsCmdErrAndNothingElse := by
  intro s data rest hs hill
  rw [step_cmdWrite hs rfl, command]
  cases h : decode .cmd (data.setWidth 32) with
  | ok i => exact absurd ((exists_decode_cmd_iff _).mp ⟨i, h⟩) hill
  | error e => rfl

/-- Settles O52: the step is END, which completes the command, or a micro-operation, whose frame holds the port. -/
theorem portIsHeldDuringACommand : Obligations.PortIsHeldDuringACommand := by
  intro s t u hn hr h
  obtain ⟨w, i, -, hd, he⟩ := step_running_cases hn hr h
  rcases exec_rom_cases (s := s.sampled) hr (wellFormed_of_decode_rom hd) he with ⟨-, rfl⟩ | ⟨-, t', hm, rfl⟩
  · simp [State.setUpc]
  · obtain ⟨-, -, hrun, -, -, hpend, hresp, -⟩ := microEffect_keepsRest hm
    exact ⟨hpend, .inl ⟨hrun.trans hr, hresp⟩⟩

/-- Settles O7: the CMD write is the command, and its word decodes to `i`. -/
theorem stepRunsTheWrittenCommand : Obligations.StepRunsTheWrittenCommand := by
  intro s off data rest i hs ho hi
  rw [step_cmdWrite hs ho, command, hi, State.accepted]

/-- Settles O9: word 0 is NOP's encoding, and NOP only responds. -/
theorem nopChangesNothing : Obligations.NopChangesNothing :=
  ⟨(decode_cmd_eq_ok_iff (i := .nop) rfl).mpr rfl, fun _ => rfl⟩

/-- Settles O12: END moves `upc` alone in its unit, and `complete` touches no unit. -/
theorem endCompletesTheCommand : Obligations.EndCompletesTheCommand := by
  intro u s hr
  exact ⟨_, exec_endOp hr, by simp, complete_running _, by simp [State.setUpc], fun r _ => by simp,
    fun r _ => by simp, by simp [State.setUpc], keepsRest_endOp u s⟩

/-- Settles O39: the three registers that a control register read can name. -/
theorem controlRegisterReads : Obligations.ControlRegisterReads := by
  intro s rest
  refine ⟨fun hs => step_ctrlRead hs rfl, fun hs => ?_, fun hs => step_ctrlRead hs rfl⟩
  rw [step_ctrlRead hs rfl]
  cases h : s.cmdErr <;> simp [ctrlRead, State.statusWord, cmdOff, statusOff, h]

/-- Settles O40: CMD_ERR after the write is CMD_ERR and not data bit 0. -/
theorem statusWriteClearsOnOne : Obligations.StatusWriteClearsOnOne := by
  intro s data rest hs
  rw [step_statusWrite hs]
  constructor
  · intro h
    rw [h, Bool.not_true, Bool.and_false]
  · intro h
    rw [h, Bool.not_false, Bool.and_true]
    rfl

end Sys2Proof.Machine
end

section
/-! PROOFS. The datapath operations that both units share, and the constant fetches (41_datapath_common.md): the lanes
of a vector and the bytes of a word; then what an operation does that writes a vector, writes a scalar, stores or loads,
each said once over its effect; then the obligations of this family. -/

namespace Sys2Proof.Machine

/-! ### The lanes of a vector (R15) -/

/-- Lane `i` of the vector whose lanes are `f 0` to `f 3`. -/
theorem lane_mk (f : Fin 4 → Word) (i : Fin 4) : lane ⟨f 0, f 1, f 2, f 3⟩ i = f i :=
  match i with
  | 0 | 1 | 2 | 3 => rfl

@[simp] theorem lane_mapLanes (f : Word → Word) (x : Vec) (i : Fin 4) : lane (mapLanes f x) i = f (lane x i) :=
  lane_mk (fun j => f (lane x j)) i

@[simp] theorem lane_zipLanes (f : Word → Word → Word) (x y : Vec) (i : Fin 4) :
    lane (zipLanes f x y) i = f (lane x i) (lane y i) :=
  lane_mk (fun j => f (lane x j) (lane y j)) i

/-- Lane `i` of 16 bytes is the little-endian word of bytes `4i` to `4i + 3` (R172). -/
theorem lane_leVec (bs : List Byte) (i : Fin 4) : lane (leVec bs) i = leValue 32 ((bs.drop (4 * i.val)).take 4) :=
  lane_mk (fun j => leValue 32 ((bs.drop (4 * j.val)).take 4)) i

/-- Byte `4i + j` of a vector's bytes is byte `j` of its lane `i` (R173). -/
theorem vecBytes_getElem (x : Vec) (i j : Fin 4) :
    (vecBytes x)[4 * i.val + j.val]'(by rw [vecBytes_length]; omega) = (lane x i).extractLsb' (8 * j.val) 8 := by
  have hb : (leBytes (lane x i) 4)[j.val]'(by rw [leBytes_length]; exact j.isLt) = _ := leBytes_getElem ..
  rw [← hb]
  match i with
  | 0 | 1 | 2 | 3 => match j with
    | 0 | 1 | 2 | 3 => rfl

/-! ### The bytes of a word (R16, R72) -/

/-- The little-endian value of four bytes is the word with the last one highest (R17, R72). -/
theorem leValue_four (b0 b1 b2 b3 : Byte) : leValue 32 [b0, b1, b2, b3] = b3 ++ b2 ++ b1 ++ b0 := by
  have h := BitVec.setWidth_append_append_append_eq_shiftLeft_setWidth_or (w'''' := 32) (b := b3) (b' := b2)
    (b'' := b1) (b''' := b0)
  rw [BitVec.setWidth_eq] at h
  simp [leValue, h, BitVec.shiftLeft_or_distrib, ← BitVec.shiftLeft_add]

/-- Above its low byte a value is what stands before that byte. -/
theorem extractLsb'_append_byte {w n : Nat} (x : BitVec w) (y : Byte) :
    (x ++ y).extractLsb' (n + 8) 8 = x.extractLsb' n 8 :=
  BitVec.extractLsb'_append_eq_of_le (Nat.le_add_left 8 n)

theorem bswap32_append (b0 b1 b2 b3 : Byte) : bswap32 (b3 ++ b2 ++ b1 ++ b0) = b0 ++ b1 ++ b2 ++ b3 := by
  have h1 : (b3 ++ b2 ++ b1 ++ b0).extractLsb' 8 8 = b1 :=
    (extractLsb'_append_byte ..).trans BitVec.extractLsb'_append_eq_right
  have h2 : (b3 ++ b2 ++ b1 ++ b0).extractLsb' 16 8 = b2 :=
    (extractLsb'_append_byte ..).trans ((extractLsb'_append_byte ..).trans BitVec.extractLsb'_append_eq_right)
  have h3 : (b3 ++ b2 ++ b1 ++ b0).extractLsb' 24 8 = b3 :=
    (extractLsb'_append_byte ..).trans ((extractLsb'_append_byte ..).trans BitVec.extractLsb'_append_eq_left)
  rw [bswap32, h1, h2, h3, BitVec.extractLsb'_append_eq_right]

/-- The bytes `b 0` to `b (n - 1)`, as a load answers them. -/
theorem loadBytes_of_bytes {s : State} {a n : Nat} {b : Nat → Byte}
    (h : ∀ k, k < n → s.mem.byte? (a + k) = some (b k)) : s.loadBytes a n = .ok ((List.range n).map b) :=
  (loadBytes_ok_iff ..).mpr ⟨by simp, fun k hk => by simpa using h k (by simpa using hk)⟩

theorem loadBytes_of_unwritten {s : State} {a n k : Nat} (hk : k < n) (h : s.mem.byte? (a + k) = none) :
    ∃ e, s.loadBytes a n = .error (.uninit (.window e)) ∧ s.mem.byte? e = none := by
  cases hl : s.loadBytes a n with
  | ok bs =>
    obtain ⟨hn, hb⟩ := (loadBytes_ok_iff ..).mp hl
    simp [hb k (by omega)] at h
  | error f =>
    obtain ⟨e, rfl, -, -, he, -⟩ := (loadBytes_error_iff ..).mp hl
    exact ⟨e, rfl, he⟩

/-- A computation whose first part answers `a` goes on with `a`. -/
theorem except_bind_of_ok {ε α β : Type} {x : Except ε α} {a : α} (h : x = .ok a) (f : α → Except ε β) :
    x >>= f = f a := by
  rw [h]
  rfl

/-! ### Words and micro-operations (R111, R115, R170, R171) -/

/-- An instruction that may stand in a unit's ROM has one word there, its encoding. -/
theorem isWord_of_encode {u : UnitId} {i : Instr} {w : Word} (hi : i.wellFormed (.rom u) = true) (hw : encode i = w) :
    IsWord u w i := by
  refine ⟨decode_eq_ok_iff.mpr ⟨hi, hw⟩, fun w' h => ?_⟩
  obtain ⟨-, hw'⟩ := decode_eq_ok_iff.mp h
  exact hw'.symm.trans hw

section
variable {i : Instr} {s : State} {u : UnitId} {k : UnitId → Except Fault State} (hx : exec i s = microOp i s k)
  (hr : s.running = some u) (hw : i.wellFormed (.rom u) = true)
include hx hr hw

/-- An operation whose effect is `V[d] <- x` writes `V[d]` and nothing else. -/
theorem exec_writeV {d : Reg} {x : Vec} (hk : k u = .ok (s.writeV u d x)) :
    ∃ t, exec i s = .next t ∧ WritesV u d s t ∧ (t.unit u).v[d] = x :=
  ⟨_, hx.trans (microOp_next hr hw hk), writesV_writeV .., writeV_advance_v ..⟩

/-- An operation whose effect is `S[d] <- x` writes `S[d]` and nothing else. -/
theorem exec_writeS {d : Reg} {x : Word} (hk : k u = .ok (s.writeS u d x)) :
    ∃ t, exec i s = .next t ∧ WritesS u d s t ∧ (t.unit u).s[d] = x :=
  ⟨_, hx.trans (microOp_next hr hw hk), writesS_writeS .., writeS_advance_s ..⟩

/-- An operation whose effect is a store of `bs` stores those bytes and nothing else. -/
theorem exec_storeBytes {a : Nat} {bs : List Byte} (hk : k u = .ok (s.storeBytes a bs)) :
    ∃ t, exec i s = .next t ∧ Stores u a bs.length s t ∧ t.mem = s.mem.store a bs :=
  ⟨_, hx.trans (microOp_next hr hw hk), stores_storeBytes .., by simp⟩

/-- An operation that loads an unwritten byte faults Uninit at an unwritten byte (R172, R174). -/
theorem exec_load_fault {a n j : Nat} {f : List Byte → Except Fault State} (hk : k u = s.loadBytes a n >>= f)
    (hj : j < n) (hb : s.mem.byte? (a + j) = none) :
    ∃ e, exec i s = .fault (.uninit (.window e)) ∧ s.mem.byte? e = none := by
  obtain ⟨e, hl, he⟩ := loadBytes_of_unwritten hj hb
  refine ⟨e, hx.trans (microOp_fault hr hw ?_), he⟩
  rw [hk, hl]
  rfl

end

/-! ### Loads and stores (R172 to R175) -/

/-- Settles O13: lane `i` of the 16 loaded bytes is the word of bytes `4i` to `4i + 3`. -/
theorem vldLoadsLittleEndianLanes : Obligations.VldLoadsLittleEndianLanes := by
  intro u d imm s hr hw
  refine ⟨isWord_of_encode hw rfl, fun b hb => ?_, fun k hk hb => exec_load_fault rfl hr hw rfl hk hb⟩
  obtain ⟨t, he, ht, hv⟩ := exec_writeV (i := .vld d imm) rfl hr hw (except_bind_of_ok (loadBytes_of_bytes hb) _)
  refine ⟨t, he, ht, fun i => ?_⟩
  rw [hv, lane_leVec, ← leValue_four]
  match i with
  | 0 | 1 | 2 | 3 => rfl

/-- Settles O14: byte `4i + j` of the stored 16 is byte `j` of lane `i`. -/
theorem vstStoresLittleEndianLanes : Obligations.VstStoresLittleEndianLanes := by
  intro u imm n s hr hw hn
  obtain ⟨t, he, ht, hm⟩ := exec_storeBytes (i := .vst imm n) rfl hr hw (except_bind_of_ok (readV_of_written hn) _)
  refine ⟨isWord_of_encode hw rfl, t, he, by rwa [vecBytes_length] at ht, fun i j => ?_⟩
  rw [hm, ← vecBytes_getElem]
  exact byte?_store_inside ..

/-- Settles O15: the word of the 4 loaded bytes. -/
theorem sldLoadsALittleEndianWord : Obligations.SldLoadsALittleEndianWord := by
  intro u d imm s hr hw
  refine ⟨isWord_of_encode hw rfl, fun b hb => ?_, fun k hk hb => exec_load_fault rfl hr hw rfl hk hb⟩
  obtain ⟨t, he, ht, hv⟩ := exec_writeS (i := .sld d imm) rfl hr hw (except_bind_of_ok (loadBytes_of_bytes hb) _)
  refine ⟨t, he, ht, ?_⟩
  rw [hv, ← leValue_four]
  rfl

/-- Settles O16: byte `j` of the stored 4 is bits `8j + 7` to `8j` of the word. -/
theorem sstStoresALittleEndianWord : Obligations.SstStoresALittleEndianWord := by
  intro u imm n s hr hw hn
  obtain ⟨t, he, ht, hm⟩ := exec_storeBytes (i := .sst imm n) rfl hr hw (except_bind_of_ok (readS_of_written hn) _)
  refine ⟨isWord_of_encode hw rfl, t, he, by rwa [leBytes_length] at ht, fun j => ?_⟩
  rw [hm]
  exact byte?_store_leBytes _ _ _ j.isLt

/-! ### Moves (R176 to R179) -/

/-- Settles O17: the value written is the one read. -/
theorem vmovCopiesTheVector : Obligations.VmovCopiesTheVector := fun _ _ _ _ hr hn =>
  ⟨isWord_of_encode rfl rfl, exec_writeV rfl hr rfl (except_bind_of_ok (readV_of_written hn) _)⟩

/-- Settles O18: the value written is the one read. -/
theorem smovCopiesTheScalar : Obligations.SmovCopiesTheScalar := fun _ _ _ _ hr hn =>
  ⟨isWord_of_encode rfl rfl, exec_writeS rfl hr rfl (except_bind_of_ok (readS_of_written hn) _)⟩

/-- Settles O19: lane by lane the byte swap of the lane. -/
theorem vrev32SwapsTheBytesOfEachLane : Obligations.Vrev32SwapsTheBytesOfEachLane := by
  intro u d n s hr hn
  obtain ⟨t, he, ht, hv⟩ := exec_writeV (i := .vrev32 d n) rfl hr rfl (except_bind_of_ok (readV_of_written hn) _)
  refine ⟨isWord_of_encode rfl rfl, t, he, ht, fun i b0 b1 b2 b3 hb => ?_⟩
  rw [hv, lane_mapLanes, hb, bswap32_append]

/-- Settles O20: the value written is the lane of the vector read. -/
theorem sgetlExtractsTheLane : Obligations.SgetlExtractsTheLane := fun _ _ _ _ _ hr hn =>
  ⟨isWord_of_encode rfl rfl, exec_writeS rfl hr rfl (except_bind_of_ok (readV_of_written hn) _)⟩

/-! ### Addition and constants (R180, R181, R183, R184) -/

/-- Settles O21: the sum of words is the sum of naturals modulo 2^32, here lane by lane. -/
theorem vaddAddsEachLaneModulo : Obligations.VaddAddsEachLaneModulo := by
  intro u d n m s hr hn hm
  obtain ⟨t, he, ht, hv⟩ := exec_writeV (i := .vadd d n m) rfl hr rfl
    ((except_bind_of_ok (readV_of_written hn) _).trans (except_bind_of_ok (readV_of_written hm) _))
  refine ⟨isWord_of_encode rfl rfl, t, he, ht, fun i => ?_⟩
  rw [hv, lane_zipLanes, BitVec.toNat_add]

/-- Settles O22: the sum of words is the sum of naturals modulo 2^32. -/
theorem saddAddsModulo : Obligations.SaddAddsModulo := by
  intro u d n m s hr hn hm
  obtain ⟨t, he, ht, hv⟩ := exec_writeS (i := .sadd d n m) rfl hr rfl
    ((except_bind_of_ok (readS_of_written hn) _).trans (except_bind_of_ok (readS_of_written hm) _))
  refine ⟨isWord_of_encode rfl rfl, t, he, ht, ?_⟩
  rw [hv, BitVec.toNat_add]

/-- The four values of K1 (R203). -/
theorem k1_eq_getElem? (k : Fin 4) :
    some (k1 k) = ([0x5A827999, 0x6ED9EBA1, 0x8F1BBCDC, 0xCA62C1D6] : List Word)[k.val]? :=
  match k with
  | 0 | 1 | 2 | 3 => rfl

theorem exec_vdupk (d : Reg) (k : Fin 4) (s : State) :
    exec (.vdupk d k) s = microOp (.vdupk d k) s fun u => .ok (s.writeV u d ⟨k1 k, k1 k, k1 k, k1 k⟩) := rfl

/-- Settles O23: every lane is `K1[k]`. -/
theorem vdupkBroadcastsTheConstant : Obligations.VdupkBroadcastsTheConstant := by
  intro d k s hr
  obtain ⟨t, he, ht, hv⟩ := exec_writeV (exec_vdupk d k s) hr rfl rfl
  refine ⟨isWord_of_encode rfl rfl, t, he, ht, fun i => ?_⟩
  rw [← k1_eq_getElem?, ← unit_u1, hv]
  exact congrArg some (lane_mk (fun _ => k1 k) i)

theorem exec_vldk (d : Reg) (g : Fin 16) (s : State) :
    exec (.vldk d g) s = microOp (.vldk d g) s fun u =>
      .ok (s.writeV u d ⟨k256 (4 * g), k256 (4 * g + 1), k256 (4 * g + 2), k256 (4 * g + 3)⟩) := rfl

/-- Settles O24: the lanes are the table's entries from `4g` on. -/
theorem vldkLoadsFourConstants : Obligations.VldkLoadsFourConstants := by
  intro d g s hr
  obtain ⟨t, he, ht, hv⟩ := exec_writeV (exec_vldk d g s) hr rfl rfl
  refine ⟨isWord_of_encode rfl rfl, t, he, ht, fun i => ?_⟩
  rw [← unit_u2, hv]
  exact lane_mk (fun j => k256 (4 * g.val + j.val)) i

/-! ### The sequencer's step (R80, R171) -/

/-- Settles O6: what a reset sample leaves is the same unit and ROM, so the same word is fetched. -/
theorem stepRunsTheFetchedMicroOp : Obligations.StepRunsTheFetchedMicroOp := by
  intro s u w i hn hr hw hd
  have hr' : s.sampled.running = some u := hr
  have hf : s.sampled.fetchWord? u = some w := by rwa [State.fetchWord?, sampled_rom, sampled_unit]
  rw [step_eq_blockStep hn, blockStep_micro hr' hf hd]

end Sys2Proof.Machine
end

section
/-! PROOFS. The SHA-1 compressor (42_sha1_compressor.md): rotation bit by bit, four rounds as one operation, and the
schedule, with the obligations that need no run; then straight-line runs of a micro-program, said once for both units;
then U1's program as groups of operations, and the simulation that settles R223. -/

namespace Sys2Proof.Machine

/-! ### Words (R16, R201) -/

/-- Bit `i` of ROL(a, n) is bit `i - n` of `a`, counted modulo 32. -/
theorem rol_getLsbD (a : Word) {n i : Nat} (hn : n < 32) (hi : i < 32) :
    (rol a n).getLsbD i = a.getLsbD ((i + (32 - n)) % 32) := by
  rw [rol, BitVec.getLsbD_or, BitVec.getLsbD_shiftLeft, BitVec.getLsbD_ushiftRight]
  by_cases h : i < n
  · rw [Nat.mod_eq_of_lt (by omega), Nat.add_comm]
    simp [h]
  · have hout : a.getLsbD (32 - n + i) = false := BitVec.getLsbD_of_ge _ _ (by omega)
    rw [show (i + (32 - n)) % 32 = i - n by omega, hout]
    simp [h, hi]

theorem rol_xor (a b : Word) {n : Nat} (hn : n < 32) : rol (a ^^^ b) n = rol a n ^^^ rol b n := by
  refine BitVec.eq_of_getLsbD_eq fun i hi => ?_
  rw [BitVec.getLsbD_xor, rol_getLsbD _ hn hi, rol_getLsbD _ hn hi, rol_getLsbD _ hn hi, BitVec.getLsbD_xor]

theorem rol_rol (a : Word) {m n : Nat} (h : m + n < 32) : rol (rol a m) n = rol a (m + n) := by
  refine BitVec.eq_of_getLsbD_eq fun i hi => ?_
  rw [rol_getLsbD _ (by omega) hi, rol_getLsbD _ (by omega) (Nat.mod_lt _ (by omega)), rol_getLsbD _ h hi]
  congr 1
  omega

/-- Settles O53: the second forms agree with the FIPS forms on each bit. -/
theorem mixingFunctionFormsAgree : Obligations.MixingFunctionFormsAgree := by
  intro x y z
  refine ⟨⟨rfl, ?_⟩, rfl, rfl, ?_⟩
  · refine BitVec.eq_of_getLsbD_eq fun i hi => ?_
    simp only [choice, BitVec.getLsbD_xor, BitVec.getLsbD_and, BitVec.getLsbD_not, hi, decide_true, Bool.true_and]
    cases x.getLsbD i <;> simp
  · refine BitVec.eq_of_getLsbD_eq fun i _ => ?_
    simp only [majority, BitVec.getLsbD_xor, BitVec.getLsbD_and, BitVec.getLsbD_or]
    cases x.getLsbD i <;> cases y.getLsbD i <;> simp

/-! ### Four rounds (R204, R209) -/

/-- The working variables a to d as the lanes of a vector (R209). -/
def Sha1State.abcd (x : Sha1State) : Vec := ⟨x.a, x.b, x.c, x.d⟩

/-- One pass of the loop of SHA1Round4 is one round of R204, `e` kept beside the vector (R209). -/
theorem sha1Pass_eq (f : Word → Word → Word → Word) (x : Sha1State) (wk : Word) :
    sha1Pass f (x.abcd, x.e) wk = ((sha1Round f wk x).abcd, (sha1Round f wk x).e) := by
  have ha : x.e + rol x.a 5 + f x.b x.c x.d + wk = rol x.a 5 + f x.b x.c x.d + x.e + wk := by ac_rfl
  simp [sha1Pass, sha1Round, Sha1State.abcd, ha]

/-- SHA1Round4 is four rounds of R204, the last `e` discarded (R209). -/
theorem sha1Round4_eq (f : Word → Word → Word → Word) (x : Sha1State) (w : Vec) :
    sha1Round4 f x.abcd x.e w = (sha1FourRounds f w x).abcd := by
  simp only [sha1Round4, sha1Pass_eq, sha1FourRounds]

/-- Settles O56: each round hands `e` on to the next variable, and the second rotates it. -/
theorem eAfterFourRoundsIsRotatedA : Obligations.EAfterFourRoundsIsRotatedA := fun _ _ _ => rfl

/-- An operation whose effect is `sha1RoundEffect f` runs four rounds with `f` (R210 to R212). -/
theorem runsFourSha1Rounds_of_effect {f : Word → Word → Word → Word} {uop : BitVec 8} {op : Reg → Reg → Reg → Instr}
    (hx : ∀ d n m s, exec (op d n m) s = microOp (op d n m) s (sha1RoundEffect f d n m s))
    (hw : ∀ d n m, (op d n m).wellFormed (.rom .u1) = true)
    (he : ∀ d n m, encode (op d n m) = pack uop d n m 0) : RunsFourSha1Rounds f uop op := by
  intro d n m s hr hd hn hm
  obtain ⟨t, ht, hwr, hv⟩ := exec_writeV (hx d n m s) hr (hw d n m)
    ((except_bind_of_ok (readV_of_written hd) _).trans
      ((except_bind_of_ok (readS_of_written hn) _).trans (except_bind_of_ok (readV_of_written hm) _)))
  exact ⟨isWord_of_encode (hw d n m) (he d n m), t, ht, hwr,
    hv.trans (sha1Round4_eq f (sha1Vars s.u1.v[d] s.u1.s[n]) s.u1.v[m])⟩

/-- Settles O25: the three operations differ in the mixing function alone. -/
theorem sha1RoundOpsAreFourRounds : Obligations.Sha1RoundOpsAreFourRounds :=
  ⟨runsFourSha1Rounds_of_effect (fun _ _ _ _ => rfl) (fun _ _ _ => rfl) fun _ _ _ => rfl,
    runsFourSha1Rounds_of_effect (fun _ _ _ _ => rfl) (fun _ _ _ => rfl) fun _ _ _ => rfl,
    runsFourSha1Rounds_of_effect (fun _ _ _ _ => rfl) (fun _ _ _ => rfl) fun _ _ _ => rfl⟩

/-- Settles O26: ROL by 30 takes bit `i` from bit `i + 2`. -/
theorem sha1hRotatesLeftByThirty : Obligations.Sha1hRotatesLeftByThirty := by
  intro d n s hr hn
  obtain ⟨t, he, ht, hs⟩ := exec_writeS (i := .sha1h d n) rfl hr rfl (except_bind_of_ok (readS_of_written hn) _)
  refine ⟨isWord_of_encode rfl rfl, t, he, ht, fun i hi => ?_⟩
  rw [← unit_u1, hs, rol_getLsbD _ (by omega) hi]
  rfl

/-! ### The schedule (R202, R214, R215) -/

/-- Settles O27: the lanes of `sha1Su0` are the pseudocode's. -/
theorem sha1su0XorsThreeWords : Obligations.Sha1su0XorsThreeWords := by
  intro d n m s hr hd hn hm
  obtain ⟨t, he, ht, hv⟩ := exec_writeV (i := .sha1su0 d n m) rfl hr rfl
    ((except_bind_of_ok (readV_of_written hd) _).trans
      ((except_bind_of_ok (readV_of_written hn) _).trans (except_bind_of_ok (readV_of_written hm) _)))
  refine ⟨isWord_of_encode rfl rfl, t, he, ht, ?_⟩
  rw [← unit_u1, hv]
  exact ⟨rfl, rfl, rfl, rfl⟩

/-- Settles O28: the lanes of `sha1Su1` are the pseudocode's. -/
theorem sha1su1FinishesTheSchedule : Obligations.Sha1su1FinishesTheSchedule := by
  intro d n s hr hd hn
  obtain ⟨t, he, ht, hv⟩ := exec_writeV (i := .sha1su1 d n) rfl hr rfl
    ((except_bind_of_ok (readV_of_written hd) _).trans (except_bind_of_ok (readV_of_written hn) _))
  refine ⟨isWord_of_encode rfl rfl, t, he, ht, ?_⟩
  rw [← unit_u1, hv]
  exact ⟨rfl, rfl, rfl, rfl⟩

/-- Settles O55: in lane 3 the word w(16) is lane 0 of this same result, and ROL(ROL(T0, 1), 1) is ROL(T0, 2). -/
theorem sha1ScheduleStepsAreTheRecurrence : Obligations.Sha1ScheduleStepsAreTheRecurrence := by
  intro w hw
  have hperm : ∀ a b c d : Word, a ^^^ b ^^^ c ^^^ d = d ^^^ c ^^^ a ^^^ b := fun a b c d => by ac_rfl
  have h16 : rol (w 2 ^^^ w 0 ^^^ w 8 ^^^ w 13) 1 = w 16 := by rw [hperm, hw 16 (by omega) (by omega)]
  have h17 : rol (w 3 ^^^ w 1 ^^^ w 9 ^^^ w 14) 1 = w 17 := by rw [hperm, hw 17 (by omega) (by omega)]
  have h18 : rol (w 4 ^^^ w 2 ^^^ w 10 ^^^ w 15) 1 = w 18 := by rw [hperm, hw 18 (by omega) (by omega)]
  have h19 : rol (w 5 ^^^ w 3 ^^^ w 11) 1 ^^^ rol (w 2 ^^^ w 0 ^^^ w 8 ^^^ w 13) 2 = w 19 := by
    rw [← rol_rol (m := 1) (n := 1) _ (by omega), h16, ← rol_xor _ _ (by omega), hperm, hw 19 (by omega) (by omega)]
  simp only [sha1Su1, sha1Su0, h16, h17, h18, h19]

/-- The words of a block: word `t` is its bytes `4t` to `4t + 3`, the first one highest (R33, R73). -/
theorem blockWords_getD {bs : List Byte} {t : Nat} (h : 4 * t + 4 ≤ bs.length) :
    (blockWords bs).getD t 0 =
      beWord (bs.getD (4 * t) 0) (bs.getD (4 * t + 1) 0) (bs.getD (4 * t + 2) 0) (bs.getD (4 * t + 3) 0) := by
  induction bs using blockWords.induct generalizing t with
  | case1 b0 b1 b2 b3 rest ih =>
    cases t with
    | zero => rfl
    | succ t =>
      simp only [List.length_cons] at h
      exact ih (by omega)
  | case2 bs hbs =>
    match bs, h with
    | b0 :: b1 :: b2 :: b3 :: rest, _ => exact absurd rfl (hbs b0 b1 b2 b3 rest)

theorem blockWords_length (bs : List Byte) : (blockWords bs).length = bs.length / 4 := by
  induction bs using blockWords.induct with
  | case1 b0 b1 b2 b3 rest ih => simp [blockWords, ih]; omega
  | case2 bs hbs =>
    match bs with
    | [] | [_] | [_, _] | [_, _, _] => simp [blockWords]
    | b0 :: b1 :: b2 :: b3 :: rest => exact absurd rfl (hbs b0 b1 b2 b3 rest)

/-! What extending a schedule leaves and what it adds, for any rule for the next word. -/

theorem extendSchedule_length (next : List Word → Word) (k : Nat) (ws : List Word) :
    (extendSchedule next k ws).length = ws.length + k := by
  induction k generalizing ws with
  | zero => rfl
  | succ k ih => rw [extendSchedule, ih, List.length_append, List.length_singleton]; omega

theorem extendSchedule_take (next : List Word → Word) (k : Nat) (ws : List Word) :
    (extendSchedule next k ws).take ws.length = ws := by
  induction k generalizing ws with
  | zero => exact List.take_length
  | succ k ih =>
    have h := congrArg (List.take ws.length) (ih (ws ++ [next ws]))
    rwa [List.take_take, List.length_append, Nat.min_eq_left (Nat.le_add_right ..), List.take_left] at h

theorem getD_take {ws : List Word} {n t : Nat} (h : t < n) : (ws.take n).getD t 0 = ws.getD t 0 := by
  simp [List.getD_eq_getElem?_getD, h]

/-- The words a schedule began with stay. -/
theorem extendSchedule_getD_of_lt (next : List Word → Word) (k : Nat) {ws : List Word} {t : Nat} (h : t < ws.length) :
    (extendSchedule next k ws).getD t 0 = ws.getD t 0 := by
  rw [← getD_take h, extendSchedule_take]

/-- Word `t` of an extended schedule, past the words it began with, is the next word after the `t` words before it. -/
theorem extendSchedule_getD (next : List Word → Word) {k : Nat} {ws : List Word} {t : Nat} (h : ws.length ≤ t)
    (hk : t < ws.length + k) :
    (extendSchedule next k ws).getD t 0 = next ((extendSchedule next k ws).take t) := by
  induction k generalizing ws with
  | zero => omega
  | succ k ih =>
    rcases Nat.eq_or_lt_of_le h with rfl | hlt
    · have hfirst : (extendSchedule next (k + 1) ws).take (ws.length + 1) = ws ++ [next ws] := by
        simpa [extendSchedule] using extendSchedule_take next k (ws ++ [next ws])
      rw [extendSchedule_take, ← getD_take (Nat.lt_succ_self _), hfirst]
      simp
    · exact ih (by simpa using hlt) (by simp; omega)

/-- Settles O54: 16 words of the block, then the recurrence for the 64 that extend them. -/
theorem sha1ScheduleIsTheRecurrence : Obligations.Sha1ScheduleIsTheRecurrence := by
  intro blk hlen
  have h16 : (blockWords blk).length = 16 := by rw [blockWords_length, hlen]
  refine ⟨by rw [sha1Schedule, extendSchedule_length, h16], fun t ht => ?_, fun t h1 h2 => ?_⟩
  · exact (extendSchedule_getD_of_lt _ _ (by omega)).trans (blockWords_getD (by omega))
  · have hnext := extendSchedule_getD sha1NextWord (k := 64) (ws := blockWords blk) (t := t) (by omega) (by omega)
    have htake : ((sha1Schedule blk).take t).length = t := by
      rw [List.length_take, sha1Schedule, extendSchedule_length]; omega
    rw [sha1Schedule, hnext, ← sha1Schedule, sha1NextWord, htake]
    simp only [getD_take (show t - 3 < t by omega), getD_take (show t - 8 < t by omega),
      getD_take (show t - 14 < t by omega), getD_take (show t - 16 < t by omega)]

/-! ### Straight-line runs (R80, R171) -/

theorem keepsRest_trans {u : UnitId} {s t r : State} (h : KeepsRest u s t) (h' : KeepsRest u t r) :
    KeepsRest u s r := by
  obtain ⟨hu, h1, h2, h3, h4, h5, h6, h7⟩ := h
  obtain ⟨hu', h1', h2', h3', h4', h5', h6', h7'⟩ := h'
  exact ⟨fun w hw => (hu' w hw).trans (hu w hw), h1'.trans h1, h2'.trans h2, h3'.trans h3, h4'.trans h4, h5'.trans h5,
    h6'.trans h6, h7'.trans h7⟩

theorem keepsRest_refl (u : UnitId) (s : State) : KeepsRest u s s :=
  ⟨fun _ _ => rfl, rfl, rfl, rfl, rfl, rfl, rfl, rfl⟩

/-- The instructions, executed in turn from `s`, end in `t`. -/
def Execs : List Instr → State → State → Prop
  | [], s, t => t = s
  | i :: is, s, t => ∃ s', exec i s = .next s' ∧ Execs is s' t

theorem execs_append {is js : List Instr} {s r t : State} (h : Execs is s r) (h' : Execs js r t) :
    Execs (is ++ js) s t := by
  induction is generalizing s with
  | nil => exact h ▸ h'
  | cons i is ih =>
    obtain ⟨s', hs, h⟩ := h
    exact ⟨s', hs, ih h⟩

/-- A micro-operation that may stand before a program's END. -/
def isStraight (u : UnitId) (i : Instr) : Bool := i.wellFormed (.rom u) && !decide (i = .endOp)

/-- What one micro-operation before END leaves: `upc` one more, and the rest of the machine. -/
theorem exec_straight_frame {u : UnitId} {i : Instr} {s t : State} (hi : isStraight u i = true)
    (hr : s.running = some u) (h : exec i s = .next t) :
    KeepsRest u s t ∧ (t.unit u).upc = (s.unit u).upc + 1 := by
  simp only [isStraight, Bool.and_eq_true, Bool.not_eq_true', decide_eq_false_iff_not] at hi
  obtain ⟨hw, hne⟩ := hi
  rcases exec_rom_cases hr hw h with ⟨rfl, -⟩ | ⟨-, t', hm, rfl⟩
  · exact absurd rfl hne
  · exact ⟨microEffect_keepsRest hm, microEffect_upc hm⟩

theorem rom_of_keepsRest {u : UnitId} {s t : State} (h : KeepsRest u s t) (w : UnitId) : t.rom w = s.rom w := by
  obtain ⟨-, -, -, h1, h2, -⟩ := h
  cases w
  · exact h1
  · exact h2

/-- With reset quiet, a step of an executing unit runs the instruction whose word its ROM holds at `upc`. -/
theorem step_encoded {u : UnitId} {s : State} {i : Instr} {done rest : List Word} (hl : s.resetLine = [])
    (hr : s.running = some u) (hi : i.wellFormed (.rom u) = true) (hrom : s.rom u = done ++ encode i :: rest)
    (hpc : (s.unit u).upc.toNat = done.length) : step s = exec i s := by
  have hs : s.sampled = s := by rw [State.sampled, hl, List.tail_nil, ← hl]
  have hf : (s.rom u)[(s.unit u).upc.toNat]? = some (encode i) := by simp [hrom, hpc]
  rw [stepRunsTheFetchedMicroOp s u _ i (by simp [State.NoReset, hl]) hr hf (decode_encode_iff.mpr hi), hs]

/-- A unit whose ROM holds the words of `is` from `upc` on runs them, one a step (R80, R171). -/
theorem run_of_execs {u : UnitId} {is : List Instr} {s t : State} {done rest : List Word}
    (hi : ∀ i ∈ is, isStraight u i = true) (hl : s.resetLine = []) (hr : s.running = some u)
    (hrom : s.rom u = done ++ (is.map encode ++ rest)) (hpc : (s.unit u).upc.toNat = done.length)
    (hlen : done.length + is.length < 256) (h : Execs is s t) :
    Host.Core.run core is.length s = .next t ∧ KeepsRest u s t ∧
      (t.unit u).upc.toNat = done.length + is.length := by
  induction is generalizing s done with
  | nil => obtain rfl := h; exact ⟨rfl, keepsRest_refl .., hpc⟩
  | cons i is ih =>
    obtain ⟨s', hs, h⟩ := h
    obtain ⟨hi0, his⟩ := List.forall_mem_cons.mp hi
    obtain ⟨hk, hpc'⟩ := exec_straight_frame hi0 hr hs
    have ⟨_, _, hrun, _, _, _, _, hline⟩ := hk
    have hstep : step s = .next s' :=
      (step_encoded hl hr (Bool.and_eq_true_iff.mp hi0).1 hrom hpc).trans hs
    rw [List.length_cons] at hlen
    obtain ⟨hrun', hk', hend⟩ := ih (done := done ++ [encode i]) his (hline.trans hl) (hrun.trans hr)
      (by rw [rom_of_keepsRest hk, hrom]; simp)
      (by rw [hpc', BitVec.toNat_add, hpc, List.length_append, List.length_singleton]
          exact Nat.mod_eq_of_lt (show done.length + 1 < 256 by omega))
      (by rw [List.length_append, List.length_singleton]; omega) h
    refine ⟨(run_succ hstep).trans hrun', keepsRest_trans hk hk', ?_⟩
    rw [hend, List.length_append, List.length_singleton, List.length_cons]
    omega

/-- The end of a command, where a run has left all but its unit (R182). -/
theorem keepsRest_completed {u : UnitId} {s t : State} {r : Option UnitId} (h : KeepsRest u { s with running := r } t) :
    KeepsRest u { s with running := none, responses := .okay :: s.responses }
      { t with running := none, responses := .okay :: t.responses } := by
  obtain ⟨hu, h1, -, h3, h4, h5, h6, h7⟩ := h
  refine ⟨fun w hw => ?_, h1, rfl, h3, h4, h5, congrArg (Response.okay :: ·) h6, h7⟩
  have hw' := hu w hw
  cases w <;> exact hw'

/-- A unit whose ROM is the words of `is` and then END runs `is`, one a step, and completes its command (R171, R182). -/
theorem run_program {u : UnitId} {is : List Instr} {s t : State} (hi : ∀ i ∈ is, isStraight u i = true)
    (hlen : is.length < 256) (hrom : s.rom u = is.map encode ++ [encode .endOp]) (hl : s.resetLine = [])
    (hr : s.running = some u) (hpc : (s.unit u).upc = 0) (h : Execs is s t) :
    Host.Core.run core (is.length + 1) s = .next (t.setUpc u 0).complete ∧ KeepsRest u s t := by
  obtain ⟨hrun, hk, hend⟩ := run_of_execs (done := []) hi hl hr hrom (by rw [hpc]; rfl) (by simpa using hlen) h
  have ⟨_, _, htr, _, _, _, _, htl⟩ := hk
  have hstep : step t = .next (t.setUpc u 0).complete := by
    rw [step_encoded (i := .endOp) (done := is.map encode) (rest := []) (htl.trans hl) (htr.trans hr)
      (by cases u <;> rfl) (by rw [rom_of_keepsRest hk, hrom]) (by simpa using hend), exec_endOp (htr.trans hr)]
  refine ⟨?_, hk⟩
  rw [run_add, hrun]
  exact (run_succ hstep).trans rfl

/-- An instruction in the frame of a micro-operation, its own effect given (R171). -/
theorem exec_next {i : Instr} {s t : State} {u : UnitId} {k : UnitId → Except Fault State}
    (hx : exec i s = microOp i s k) (hr : s.running = some u) (hw : i.wellFormed (.rom u) = true)
    (hk : k u = .ok t) : exec i s = .next (t.advance u) :=
  hx.trans (microOp_next hr hw hk)

/-! What the next micro-operation reads after one that wrote a register. -/

section
variable (s : State) (u : UnitId) (d r : Reg)

theorem writeV_advance_readV_same (x : Vec) : ((s.writeV u d x).advance u).readV u d = .ok x :=
  (readV_ok_iff ..).mpr ⟨by simp [State.writeV], writeV_advance_v ..⟩

@[simp] theorem writeV_advance_readV (x : Vec) :
    ((s.writeV u d x).advance u).readV u r = if r = d then .ok x else s.readV u r := by
  split
  · next h => exact h ▸ writeV_advance_readV_same ..
  · next h =>
    simp [State.readV, State.writeV, -Fin.getElem_fin, setV_v_other _ _ h, setV_vWritten_other _ _ h]

@[simp] theorem writeV_advance_readS (x : Vec) : ((s.writeV u d x).advance u).readS u r = s.readS u r := by
  simp [State.readS, State.writeV]

theorem writeS_advance_readS_same (x : Word) : ((s.writeS u d x).advance u).readS u d = .ok x :=
  (readS_ok_iff ..).mpr ⟨by simp [State.writeS], writeS_advance_s ..⟩

@[simp] theorem writeS_advance_readS (x : Word) :
    ((s.writeS u d x).advance u).readS u r = if r = d then .ok x else s.readS u r := by
  split
  · next h => exact h ▸ writeS_advance_readS_same ..
  · next h =>
    simp [State.readS, State.writeS, -Fin.getElem_fin, setS_s_other _ _ h, setS_sWritten_other _ _ h]

@[simp] theorem writeS_advance_readV (x : Word) : ((s.writeS u d x).advance u).readV u r = s.readV u r := by
  simp [State.readV, State.writeS]

@[simp] theorem storeBytes_advance_readS (a : Nat) (bs : List Byte) :
    ((s.storeBytes a bs).advance u).readS u r = s.readS u r := by
  simp [State.readS]

@[simp] theorem writeV_mem (x : Vec) : (s.writeV u d x).mem = s.mem := setUnit_mem ..

@[simp] theorem writeS_mem (x : Word) : (s.writeS u d x).mem = s.mem := setUnit_mem ..

@[simp] theorem writeV_advance_loadBytes (x : Vec) (a n : Nat) :
    ((s.writeV u d x).advance u).loadBytes a n = s.loadBytes a n :=
  loadBytes_congr fun _ _ => by simp

@[simp] theorem writeS_advance_loadBytes (x : Word) (a n : Nat) :
    ((s.writeS u d x).advance u).loadBytes a n = s.loadBytes a n :=
  loadBytes_congr fun _ _ => by simp

@[simp] theorem writeV_running (x : Vec) : (s.writeV u d x).running = s.running := setUnit_running ..

@[simp] theorem writeS_running (x : Word) : (s.writeS u d x).running = s.running := setUnit_running ..

end

/-- Part of loaded bytes is a load of its own. -/
theorem loadBytes_part {s : State} {a n i m : Nat} {bs : List Byte} (h : s.loadBytes a n = .ok bs) (hm : i + m ≤ n) :
    s.loadBytes (a + i) m = .ok ((bs.drop i).take m) := by
  obtain ⟨hlen, hb⟩ := (loadBytes_ok_iff ..).mp h
  refine (loadBytes_ok_iff ..).mpr ⟨by rw [List.length_take, List.length_drop]; omega, fun k hk => ?_⟩
  rw [List.length_take, List.length_drop] at hk
  rw [Nat.add_assoc, hb (i + k) (by omega), List.getElem_take, List.getElem_drop]

/-! One rule for each operation of both units: the next state, given what it reads (R172 to R181). -/

section
variable {s : State} {u : UnitId} (hr : s.running = some u)
include hr

theorem exec_vld_next {d : Reg} {imm : BitVec 12} {bs : List Byte}
    (hw : (Instr.vld d imm).wellFormed (.rom u) = true) (hb : s.loadBytes (localAddr u imm) 16 = .ok bs) :
    exec (.vld d imm) s = .next ((s.writeV u d (leVec bs)).advance u) :=
  exec_next rfl hr hw (except_bind_of_ok hb _)

theorem exec_sld_next {d : Reg} {imm : BitVec 12} {bs : List Byte}
    (hw : (Instr.sld d imm).wellFormed (.rom u) = true) (hb : s.loadBytes (localAddr u imm) 4 = .ok bs) :
    exec (.sld d imm) s = .next ((s.writeS u d (leValue 32 bs)).advance u) :=
  exec_next rfl hr hw (except_bind_of_ok hb _)

theorem exec_vst_next {imm : BitVec 12} {n : Reg} {x : Vec} (hw : (Instr.vst imm n).wellFormed (.rom u) = true)
    (hn : s.readV u n = .ok x) :
    exec (.vst imm n) s = .next ((s.storeBytes (localAddr u imm) (vecBytes x)).advance u) :=
  exec_next rfl hr hw (except_bind_of_ok hn _)

theorem exec_sst_next {imm : BitVec 12} {n : Reg} {x : Word} (hw : (Instr.sst imm n).wellFormed (.rom u) = true)
    (hn : s.readS u n = .ok x) :
    exec (.sst imm n) s = .next ((s.storeBytes (localAddr u imm) (leBytes x 4)).advance u) :=
  exec_next rfl hr hw (except_bind_of_ok hn _)

theorem exec_vmov_next {d n : Reg} {x : Vec} (hn : s.readV u n = .ok x) :
    exec (.vmov d n) s = .next ((s.writeV u d x).advance u) :=
  exec_next rfl hr rfl (except_bind_of_ok hn _)

theorem exec_smov_next {d n : Reg} {x : Word} (hn : s.readS u n = .ok x) :
    exec (.smov d n) s = .next ((s.writeS u d x).advance u) :=
  exec_next rfl hr rfl (except_bind_of_ok hn _)

theorem exec_vrev32_next {d n : Reg} {x : Vec} (hn : s.readV u n = .ok x) :
    exec (.vrev32 d n) s = .next ((s.writeV u d (mapLanes bswap32 x)).advance u) :=
  exec_next rfl hr rfl (except_bind_of_ok hn _)

theorem exec_sgetl_next {d n : Reg} {i : Fin 4} {x : Vec} (hn : s.readV u n = .ok x) :
    exec (.sgetl d n i) s = .next ((s.writeS u d (lane x i)).advance u) :=
  exec_next rfl hr rfl (except_bind_of_ok hn _)

theorem exec_vadd_next {d n m : Reg} {x y : Vec} (hn : s.readV u n = .ok x) (hm : s.readV u m = .ok y) :
    exec (.vadd d n m) s = .next ((s.writeV u d (zipLanes (· + ·) x y)).advance u) :=
  exec_next rfl hr rfl ((except_bind_of_ok hn _).trans (except_bind_of_ok hm _))

theorem exec_sadd_next {d n m : Reg} {x y : Word} (hn : s.readS u n = .ok x) (hm : s.readS u m = .ok y) :
    exec (.sadd d n m) s = .next ((s.writeS u d (x + y)).advance u) :=
  exec_next rfl hr rfl ((except_bind_of_ok hn _).trans (except_bind_of_ok hm _))

end

/-! ### U1's program as groups of operations (R220) -/

/-- The ring register of message words `4j` to `4j + 3` (R221). -/
def ringReg (j : Nat) : Reg := Fin.ofNat 16 (4 + j % 4)

/-- The e input of round group `g`: S0 for even groups, S3 for odd ones (R220, R221). -/
def eReg (g : Nat) : Reg := if g % 2 = 0 then 0 else 3

/-- The fused operation of round `t` (R205, R210 to R212). -/
def sha1Op (t : Nat) : Reg → Reg → Reg → Instr :=
  if t < 20 then .sha1c else if t < 40 then .sha1p else if t < 60 then .sha1m else .sha1p

/-- Load state and block, byte-swap (R220, upc 0 to 11). -/
def sha1Load : List Instr :=
  [.vld 0 0x00, .sld 0 0x10, .vmov 1 0, .smov 1 0, .vld 4 0x40, .vld 5 0x50, .vld 6 0x60, .vld 7 0x70,
   .vrev32 4 4, .vrev32 5 5, .vrev32 6 6, .vrev32 7 7]

/-- The schedule step that turns words `4k` to `4k + 15` of the ring into words `4k + 4` to `4k + 19` (R224). -/
def sha1ScheduleOps (k : Nat) : List Instr :=
  [.sha1su0 (ringReg k) (ringReg (k + 1)) (ringReg (k + 2)), .sha1su1 (ringReg k) (ringReg (k + 3))]

/-- Round group `g`, rounds `4g` to `4g + 3` (R220, R222). -/
def sha1RoundOps (g : Nat) : List Instr :=
  [.vdupk 2 (Fin.ofNat 4 (4 * g / 20)), .vadd 2 (ringReg g) 2, .sgetl 2 0 0, .sha1h (eReg (g + 1)) 2,
   sha1Op (4 * g) 0 (eReg g) 2]

/-- The round groups that use the block's own words (R220, upc 12 to 31). -/
def sha1BlockGroups (n : Nat) : List Instr := (List.range n).flatMap sha1RoundOps

/-- The round groups that schedule their words first (R220, upc 32 to 143). -/
def sha1ScheduledGroups (n : Nat) : List Instr :=
  (List.range n).flatMap fun k => sha1ScheduleOps k ++ sha1RoundOps (k + 4)

/-- Feed-forward and store (R220, upc 144 to 147). -/
def sha1Store : List Instr := [.vadd 0 0 1, .sadd 0 0 1, .vst 0x00 0, .sst 0x10 0]

/-- U1's micro-program but its END. -/
def sha1Program : List Instr := sha1Load ++ sha1BlockGroups 4 ++ sha1ScheduledGroups 16 ++ sha1Store

theorem rom_u1_eq_sha1Program : Rom.u1 = sha1Program.map encode ++ [encode .endOp] := by decide +kernel

theorem sha1Program_straight : ∀ i ∈ sha1Program, isStraight .u1 i = true := by decide +kernel

theorem sha1Program_length : sha1Program.length = 148 := by decide +kernel

/-! ### The operations of U1 alone (R183, R205, R210 to R215) -/

section
variable {s : State} (hr : s.running = some .u1)
include hr

theorem exec_vdupk_next {d : Reg} {k : Fin 4} :
    exec (.vdupk d k) s = .next ((s.writeV .u1 d ⟨k1 k, k1 k, k1 k, k1 k⟩).advance .u1) :=
  exec_next (exec_vdupk d k s) hr rfl rfl

theorem exec_sha1h_next {d n : Reg} {x : Word} (hn : s.readS .u1 n = .ok x) :
    exec (.sha1h d n) s = .next ((s.writeS .u1 d (rol x 30)).advance .u1) :=
  exec_next rfl hr rfl (except_bind_of_ok hn _)

theorem exec_sha1su0_next {d n m : Reg} {x y z : Vec} (hd : s.readV .u1 d = .ok x) (hn : s.readV .u1 n = .ok y)
    (hm : s.readV .u1 m = .ok z) :
    exec (.sha1su0 d n m) s = .next ((s.writeV .u1 d (sha1Su0 x y z)).advance .u1) :=
  exec_next rfl hr rfl ((except_bind_of_ok hd _).trans ((except_bind_of_ok hn _).trans (except_bind_of_ok hm _)))

theorem exec_sha1su1_next {d n : Reg} {x y : Vec} (hd : s.readV .u1 d = .ok x) (hn : s.readV .u1 n = .ok y) :
    exec (.sha1su1 d n) s = .next ((s.writeV .u1 d (sha1Su1 x y)).advance .u1) :=
  exec_next rfl hr rfl ((except_bind_of_ok hd _).trans (except_bind_of_ok hn _))

/-- The fused operation of round `t` runs four rounds with the mixing function of round `t` (R205). -/
theorem exec_sha1Op_next {t : Nat} {d n m : Reg} {x : Sha1State} {w : Vec} (hd : s.readV .u1 d = .ok x.abcd)
    (hn : s.readS .u1 n = .ok x.e) (hm : s.readV .u1 m = .ok w) :
    exec (sha1Op t d n m) s = .next ((s.writeV .u1 d (sha1FourRounds (sha1F t) w x).abcd).advance .u1) := by
  have heffect : exec (sha1Op t d n m) s = microOp (sha1Op t d n m) s (sha1RoundEffect (sha1F t) d n m s) := by
    unfold sha1Op sha1F
    split_ifs <;> rfl
  have hwf : (sha1Op t d n m).wellFormed (.rom .u1) = true := by
    unfold sha1Op
    split_ifs <;> rfl
  rw [← sha1Round4_eq]
  exact exec_next heffect hr hwf
    ((except_bind_of_ok hd _).trans ((except_bind_of_ok hn _).trans (except_bind_of_ok hm _)))

end

/-! ### The registers between round groups (R221) -/

theorem ringReg_eq_iff (i j : Nat) : ringReg i = ringReg j ↔ i % 4 = j % 4 := by
  rw [Fin.ext_iff, ringReg, ringReg, Fin.val_ofNat, Fin.val_ofNat]
  omega

/-- The ring lies above V0, V1 and V2. -/
theorem ringReg_ne_of_lt (j : Nat) {r : Reg} (hr : r.val < 4) : ringReg j ≠ r := by
  rw [Ne, Fin.ext_iff, ringReg, Fin.val_ofNat]
  omega

@[simp] theorem ringReg_ne_zero (j : Nat) : ringReg j ≠ 0 := ringReg_ne_of_lt j (by decide)

@[simp] theorem ringReg_ne_one (j : Nat) : ringReg j ≠ 1 := ringReg_ne_of_lt j (by decide)

@[simp] theorem ringReg_ne_two (j : Nat) : ringReg j ≠ 2 := ringReg_ne_of_lt j (by decide)

@[simp] theorem eReg_ne_one (g : Nat) : eReg g ≠ 1 := by unfold eReg; split <;> decide

@[simp] theorem eReg_ne_two (g : Nat) : eReg g ≠ 2 := by unfold eReg; split <;> decide

@[simp] theorem eReg_ne_succ (g : Nat) : eReg g ≠ eReg (g + 1) := by
  rcases Nat.mod_two_eq_zero_or_one g with h | h
  · simp [eReg, h, show (g + 1) % 2 = 1 by omega]
  · simp [eReg, h, show (g + 1) % 2 = 0 by omega]

/-- Words `4j` to `4j + 3` of a schedule, as a ring register holds them. -/
def wordQuad (ws : List Word) (j : Nat) : Vec :=
  ⟨ws.getD (4 * j) 0, ws.getD (4 * j + 1) 0, ws.getD (4 * j + 2) 0, ws.getD (4 * j + 3) 0⟩

/-- U1 inside a command on state `h` and schedule `ws`, `g` round groups done and words `4k` to `4k + 15` in the ring
(R221): the working variables after `4g` rounds, the state as loaded, and memory still `m`. -/
structure Sha1At (m : Memory) (h : Sha1State) (ws : List Word) (g k : Nat) (s : State) : Prop where
  running : s.running = some .u1
  mem : s.mem = m
  abcd : s.readV .u1 0 = .ok (sha1Rounds ws 0 (4 * g) h).abcd
  e : s.readS .u1 (eReg g) = .ok (sha1Rounds ws 0 (4 * g) h).e
  origAbcd : s.readV .u1 1 = .ok h.abcd
  origE : s.readS .u1 1 = .ok h.e
  ring : ∀ j, k ≤ j → j < k + 4 → s.readV .u1 (ringReg j) = .ok (wordQuad ws j)

/-! ### The schedule step (R224) -/

/-- A schedule that follows the recurrence gives its next four words by SHA1SU0 and SHA1SU1. -/
theorem sha1Su1_wordQuad {blk : List Byte} (hlen : blk.length = 64) {k : Nat} (hk : k < 16) :
    sha1Su1 (sha1Su0 (wordQuad (sha1Schedule blk) k) (wordQuad (sha1Schedule blk) (k + 1))
      (wordQuad (sha1Schedule blk) (k + 2))) (wordQuad (sha1Schedule blk) (k + 3)) =
        wordQuad (sha1Schedule blk) (k + 4) := by
  obtain ⟨-, -, hrec⟩ := sha1ScheduleIsTheRecurrence blk hlen
  refine sha1ScheduleStepsAreTheRecurrence (fun t => (sha1Schedule blk).getD (4 * k + t) 0) fun t h1 h2 => ?_
  have h := hrec (4 * k + t) (by omega) (by omega)
  rwa [Nat.add_sub_assoc (by omega), Nat.add_sub_assoc (by omega), Nat.add_sub_assoc (by omega),
    Nat.add_sub_assoc (by omega)] at h

section
variable {m : Memory} {h : Sha1State} {blk : List Byte} {g k : Nat} {s : State}

/-- The schedule step moves the ring's window on by four words (R224). -/
theorem execs_sha1ScheduleOps (hlen : blk.length = 64) (hk : k < 16) (hs : Sha1At m h (sha1Schedule blk) g k s) :
    ∃ t, Execs (sha1ScheduleOps k) s t ∧ Sha1At m h (sha1Schedule blk) g (k + 1) t := by
  obtain ⟨hrun, hmem, habcd, he, hoa, hoe, hring⟩ := hs
  have h0 := hring k (by omega) (by omega)
  have h1 := hring (k + 1) (by omega) (by omega)
  have h2 := hring (k + 2) (by omega) (by omega)
  have h3 := hring (k + 3) (by omega) (by omega)
  have hne : ringReg (k + 3) ≠ ringReg k := by rw [Ne, ringReg_eq_iff]; omega
  refine ⟨_, ⟨_, exec_sha1su0_next hrun h0 h1 h2, _,
    exec_sha1su1_next (by simpa) (writeV_advance_readV_same ..) (by simpa [hne] using h3), rfl⟩, ?_⟩
  rw [sha1Su1_wordQuad hlen hk]
  refine ⟨by simpa, by simpa, ?_, by simpa, ?_, by simpa, fun j hj hj' => ?_⟩
  · simpa [(ringReg_ne_zero _).symm]
  · simpa [(ringReg_ne_one _).symm]
  · by_cases hlast : j = k + 4
    · have hsame : ringReg j = ringReg k := by rw [ringReg_eq_iff]; omega
      rw [hsame, hlast]
      exact writeV_advance_readV_same ..
    · have hother : ringReg j ≠ ringReg k := by rw [Ne, ringReg_eq_iff]; omega
      simpa [hother] using hring j (by omega) (by omega)

/-! ### A round group (R204, R205, R225) -/

theorem sha1Rounds_add (ws : List Word) (t a b : Nat) (x : Sha1State) :
    sha1Rounds ws t (a + b) x = sha1Rounds ws (t + a) b (sha1Rounds ws t a x) := by
  induction a generalizing t x with
  | zero => rw [Nat.zero_add]; rfl
  | succ a ih => rw [Nat.add_right_comm, sha1Rounds, ih, sha1Rounds, Nat.add_assoc, Nat.add_comm 1]

/-- The constants and message words of a round group, summed (R204). -/
def sha1Sums (ws : List Word) (g : Nat) : Vec :=
  zipLanes (· + ·) (wordQuad ws g) ⟨sha1K (4 * g), sha1K (4 * g), sha1K (4 * g), sha1K (4 * g)⟩

/-- One mixing function and one constant serve the four rounds of a group, for 20 is a multiple of 4 (R203, R205). -/
theorem sha1F_sha1K_group {i : Nat} (g : Nat) (hi : i < 4) :
    sha1F (4 * g + i) = sha1F (4 * g) ∧ sha1K (4 * g + i) = sha1K (4 * g) := by
  have h20 : 4 * g + i < 20 ↔ 4 * g < 20 := by omega
  have h40 : 4 * g + i < 40 ↔ 4 * g < 40 := by omega
  have h60 : 4 * g + i < 60 ↔ 4 * g < 60 := by omega
  have hdiv : (4 * g + i) / 20 = 4 * g / 20 := by omega
  simp only [sha1F, sha1K, h20, h40, h60, hdiv, and_self]

/-- Rounds `4g` to `4g + 3` are four rounds with one mixing function and the group's sums (R204). -/
theorem sha1Rounds_group (ws : List Word) (g : Nat) (x : Sha1State) :
    sha1Rounds ws 0 (4 * (g + 1)) x =
      sha1FourRounds (sha1F (4 * g)) (sha1Sums ws g) (sha1Rounds ws 0 (4 * g) x) := by
  obtain ⟨hf1, hk1⟩ := sha1F_sha1K_group g (i := 1) (by omega)
  obtain ⟨hf2, hk2⟩ := sha1F_sha1K_group g (i := 2) (by omega)
  obtain ⟨hf3, hk3⟩ := sha1F_sha1K_group g (i := 3) (by omega)
  rw [Nat.mul_succ, sha1Rounds_add, Nat.zero_add]
  simp only [sha1Rounds, sha1FourRounds, sha1Sums, zipLanes, wordQuad, Nat.add_assoc, Nat.reduceAdd, hf1, hk1, hf2, hk2,
    hf3, hk3, BitVec.add_comm (sha1K (4 * g))]

/-- A round group runs four rounds on the working variables; the next `e` is ROL(A, 30) of the A before them (R225). -/
theorem execs_sha1RoundOps {ws : List Word} (hkg : k ≤ g) (hgk : g < k + 4) (hs : Sha1At m h ws g k s) :
    ∃ t, Execs (sha1RoundOps g) s t ∧ Sha1At m h ws (g + 1) k t := by
  obtain ⟨hrun, hmem, habcd, he, hoa, hoe, hring⟩ := hs
  have hwords : s.readV .u1 (ringReg g) = .ok (wordQuad ws g) := hring g hkg hgk
  have hnext : rol (lane (sha1Rounds ws 0 (4 * g) h).abcd 0) 30 = (sha1Rounds ws 0 (4 * (g + 1)) h).e := by
    rw [sha1Rounds_group, eAfterFourRoundsIsRotatedA]
    rfl
  refine ⟨_, ⟨_, exec_vdupk_next hrun, _,
    exec_vadd_next (by simpa) (by simpa using hwords) (writeV_advance_readV_same ..), _,
    exec_sgetl_next (by simpa) (by simpa using habcd), _,
    exec_sha1h_next (by simpa) (writeS_advance_readS_same ..), _,
    exec_sha1Op_next (w := sha1Sums ws g) (by simpa) (by simpa using habcd) (by simpa using he)
      ((writeS_advance_readV ..).trans ((writeS_advance_readV ..).trans (writeV_advance_readV_same ..))), rfl⟩, ?_⟩
  rw [hnext, ← sha1Rounds_group]
  exact ⟨by simpa, by simpa, by simp, by simp, by simpa, by simpa [(eReg_ne_one _).symm],
    fun j hj hj' => by simpa using hring j hj hj'⟩

/-! ### The twenty groups -/

/-- The groups that use the block's own words leave the ring as it was loaded. -/
theorem execs_sha1BlockGroups {ws : List Word} {n : Nat} (hn : n ≤ 4) (hs : Sha1At m h ws 0 0 s) :
    ∃ t, Execs (sha1BlockGroups n) s t ∧ Sha1At m h ws n 0 t := by
  induction n with
  | zero => exact ⟨s, rfl, hs⟩
  | succ n ih =>
    obtain ⟨r, hr, hsr⟩ := ih (by omega)
    obtain ⟨t, ht, hst⟩ := execs_sha1RoundOps (Nat.zero_le n) (by omega) hsr
    refine ⟨t, ?_, hst⟩
    rw [sha1BlockGroups, List.range_succ, List.flatMap_append, List.flatMap_singleton]
    exact execs_append hr ht

/-- The other groups move the ring on by four words each. -/
theorem execs_sha1ScheduledGroups (hlen : blk.length = 64) {n : Nat} (hn : n ≤ 16)
    (hs : Sha1At m h (sha1Schedule blk) 4 0 s) :
    ∃ t, Execs (sha1ScheduledGroups n) s t ∧ Sha1At m h (sha1Schedule blk) (n + 4) n t := by
  induction n with
  | zero => exact ⟨s, rfl, hs⟩
  | succ n ih =>
    obtain ⟨r, hr, hsr⟩ := ih (by omega)
    obtain ⟨r', hr', hsr'⟩ := execs_sha1ScheduleOps hlen (by omega) hsr
    obtain ⟨t, ht, hst⟩ := execs_sha1RoundOps (by omega) (by omega) hsr'
    refine ⟨t, ?_, Nat.add_right_comm n 4 1 ▸ hst⟩
    rw [sha1ScheduledGroups, List.range_succ, List.flatMap_append, List.flatMap_singleton]
    exact execs_append hr (execs_append hr' ht)

/-! ### Load and store (R200, R206) -/

/-- Word `t` of a block is its little-endian word byte-swapped (R72, R73). -/
theorem bswap32_leValue_blockWord {bs : List Byte} {t : Nat} (h : 4 * t + 4 ≤ bs.length) :
    bswap32 (leValue 32 ((bs.drop (4 * t)).take 4)) = (blockWords bs).getD t 0 := by
  induction bs using blockWords.induct generalizing t with
  | case1 b0 b1 b2 b3 rest ih =>
    cases t with
    | zero => exact (congrArg bswap32 (leValue_four ..)).trans (bswap32_append ..)
    | succ t =>
      simp only [List.length_cons] at h
      exact ih (by omega)
  | case2 bs hbs =>
    match bs, h with
    | b0 :: b1 :: b2 :: b3 :: rest, _ => exact absurd rfl (hbs b0 b1 b2 b3 rest)

/-- 16 loaded bytes of the block, each lane byte-swapped, are four words of the schedule (R202, R220). -/
theorem mapLanes_bswap32_leVec {j : Nat} (hlen : blk.length = 64) (hj : j < 4) :
    mapLanes bswap32 (leVec ((blk.drop (16 * j)).take 16)) = wordQuad (sha1Schedule blk) j := by
  have hlane : ∀ i < 4, bswap32 (leValue 32 ((((blk.drop (16 * j)).take 16).drop (4 * i)).take 4)) =
      (sha1Schedule blk).getD (4 * j + i) 0 := by
    intro i hi
    rw [sha1Schedule, extendSchedule_getD_of_lt _ _ (by rw [blockWords_length]; omega),
      ← bswap32_leValue_blockWord (by omega), List.drop_take, List.take_take, List.drop_drop,
      Nat.min_eq_left (by omega), show 16 * j + 4 * i = 4 * (4 * j + i) by omega]
  rw [mapLanes, wordQuad, Vec.mk.injEq]
  exact ⟨hlane 0 (by omega), hlane 1 (by omega), hlane 2 (by omega), hlane 3 (by omega)⟩

/-- The first 16 bytes of U1.STATE are its words A to D (R32, R172). -/
theorem leVec_take_sha1State (st : List Byte) : leVec (st.take 16) = (sha1StateOf st).abcd := by
  simp [leVec, Sha1State.abcd, sha1StateOf, List.drop_take, List.take_take]

/-- The last 4 bytes of U1.STATE are its word E (R32, R174). -/
theorem leValue_drop_sha1State (st : List Byte) : leValue 32 ((st.drop 16).take 4) = (sha1StateOf st).e := rfl

/-- The loaded state and block are where the first round group expects them (R220). -/
theorem execs_sha1Load {st : List Byte} (hrun : s.running = some .u1) (hst : s.loadBytes 0x000 20 = .ok st)
    (hblk : s.loadBytes 0x040 64 = .ok blk) :
    ∃ t, Execs sha1Load s t ∧ Sha1At s.mem (sha1StateOf st) (sha1Schedule blk) 0 0 t := by
  have hlen : blk.length = 64 := ((loadBytes_ok_iff ..).mp hblk).1
  have habcd : s.loadBytes (localAddr .u1 0x00) 16 = .ok (st.take 16) := loadBytes_part hst (i := 0) (by omega)
  have he : s.loadBytes (localAddr .u1 0x10) 4 = .ok ((st.drop 16).take 4) := loadBytes_part hst (i := 16) (by omega)
  have hquad : ∀ j < 4, s.loadBytes (0x040 + 16 * j) 16 = .ok ((blk.drop (16 * j)).take 16) :=
    fun j hj => loadBytes_part hblk (by omega)
  refine ⟨_, ⟨_, exec_vld_next hrun rfl habcd, _,
    exec_sld_next (by simpa) rfl ((writeV_advance_loadBytes ..).trans he), _,
    exec_vmov_next (by simpa) ((writeS_advance_readV ..).trans (writeV_advance_readV_same ..)), _,
    exec_smov_next (by simpa) ((writeV_advance_readS ..).trans (writeS_advance_readS_same ..)), _,
    exec_vld_next (by simpa) rfl (by simpa [localAddr, unitBase] using hquad 0 (by omega)), _,
    exec_vld_next (by simpa) rfl (by simpa [localAddr, unitBase] using hquad 1 (by omega)), _,
    exec_vld_next (by simpa) rfl (by simpa [localAddr, unitBase] using hquad 2 (by omega)), _,
    exec_vld_next (by simpa) rfl (by simpa [localAddr, unitBase] using hquad 3 (by omega)), _,
    exec_vrev32_next (x := leVec (blk.take 16)) (by simpa) (by simp), _,
    exec_vrev32_next (x := leVec ((blk.drop 16).take 16)) (by simpa) (by simp), _,
    exec_vrev32_next (x := leVec ((blk.drop 32).take 16)) (by simpa) (by simp), _,
    exec_vrev32_next (x := leVec ((blk.drop 48).take 16)) (by simpa) (by simp), rfl⟩, ?_⟩
  refine ⟨by simpa, by simp, ?_, ?_, ?_, ?_, fun j _ hj => ?_⟩
  · simp [sha1Rounds, leVec_take_sha1State]
  · simp [eReg, sha1Rounds, leValue_drop_sha1State]
  · simp [leVec_take_sha1State]
  · simp [leValue_drop_sha1State]
  · rw [← mapLanes_bswap32_leVec hlen hj]
    match j, hj with
    | 0, _ | 1, _ | 2, _ | 3, _ => simp [ringReg]

/-- The bytes of the sum state, as VADD, SADD, VST and SST give them (R206). -/
theorem sha1State_add_bytes (h x : Sha1State) :
    (h.add x).bytes = vecBytes (zipLanes (· + ·) x.abcd h.abcd) ++ leBytes (x.e + h.e) 4 := by
  simp only [Sha1State.bytes, Sha1State.add, vecBytes, zipLanes, Sha1State.abcd, BitVec.add_comm h.a,
    BitVec.add_comm h.b, BitVec.add_comm h.c, BitVec.add_comm h.d, BitVec.add_comm h.e]

/-- The final store leaves the word-wise sums of R206 in U1.STATE. -/
theorem execs_sha1Store {ws : List Word} (hs : Sha1At m h ws 20 16 s) :
    ∃ t, Execs sha1Store s t ∧ t.mem = m.store 0x000 (h.add (sha1Rounds ws 0 80 h)).bytes := by
  obtain ⟨hrun, hmem, habcd, he, hoa, hoe, -⟩ := hs
  refine ⟨_, ⟨_, exec_vadd_next hrun habcd hoa, _,
    exec_sadd_next (by simpa) ((writeV_advance_readS ..).trans he) ((writeV_advance_readS ..).trans hoe), _,
    exec_vst_next (by simpa) rfl ((writeS_advance_readV ..).trans (writeV_advance_readV_same ..)), _,
    exec_sst_next (by simpa) rfl ((storeBytes_advance_readS ..).trans (writeS_advance_readS_same ..)), rfl⟩, ?_⟩
  rw [sha1State_add_bytes, store_append, vecBytes_length, ← hmem]
  simp [localAddr, unitBase]

/-! ### The whole command (R146, R171, R223) -/

/-- The micro-program but its END, run on loaded inputs, leaves the compressed state in U1.STATE (R200, R220). -/
theorem execs_sha1Program {st : List Byte} (hrun : s.running = some .u1) (hst : s.loadBytes 0x000 20 = .ok st)
    (hblk : s.loadBytes 0x040 64 = .ok blk) :
    ∃ t, Execs sha1Program s t ∧ t.mem = s.mem.store 0x000 (sha1CompressFn (sha1StateOf st) blk).bytes := by
  have hlen : blk.length = 64 := ((loadBytes_ok_iff ..).mp hblk).1
  obtain ⟨s1, h1, hs1⟩ := execs_sha1Load hrun hst hblk
  obtain ⟨s2, h2, hs2⟩ := execs_sha1BlockGroups (le_refl 4) hs1
  obtain ⟨s3, h3, hs3⟩ := execs_sha1ScheduledGroups hlen (le_refl 16) hs2
  obtain ⟨t, h4, ht⟩ := execs_sha1Store hs3
  exact ⟨t, execs_append (execs_append (execs_append h1 h2) h3) h4, ht⟩

end

/-- Settles O59: the command starts U1 (R171), its program is the groups of R220, and END gives the OKAY. -/
theorem sha1MicroProgramComputesTheCompression : Obligations.Sha1MicroProgramComputesTheCompression := by
  intro s m hrom hline hm
  obtain ⟨st, hst, hm⟩ := except_bind_ok.mp hm
  obtain ⟨blk, hblk, hm⟩ := except_bind_ok.mp hm
  have hin : s.InputsWritten .u1 := by
    rw [← checkInputs_ok_iff, State.checkInputs]
    exact (except_bind_of_ok hst _).trans (except_bind_of_ok hblk _)
  obtain ⟨t0, hstart, hrun0, hpc0, -, hmem0, hk0⟩ := compressCommandStartsItsUnit .u1 s hin
  have ⟨_, _, _, hrom0, _, _, _, hline0⟩ := hk0
  have hload : ∀ a n, t0.loadBytes a n = s.loadBytes a n := fun a n => loadBytes_congr fun _ _ => by rw [hmem0]
  obtain ⟨t, hexec, ht⟩ := execs_sha1Program hrun0 ((hload ..).trans hst) ((hload ..).trans hblk)
  obtain ⟨hrun, hk⟩ := run_program sha1Program_straight (by rw [sha1Program_length]; omega)
    ((hrom0.trans hrom).trans rom_u1_eq_sha1Program) (hline0.trans hline) hrun0 hpc0 hexec
  rw [sha1Program_length] at hrun
  refine ⟨t0, _, hstart, hrun, ?_, rfl, rfl, ?_⟩
  · rw [except_pure_ok.mp hm, ← hmem0, ← ht]
    rfl
  · exact keepsRest_trans (keepsRest_completed (keepsRest_trans hk0 hk)) (keepsRest_endOp ..)

end Sys2Proof.Machine
end

section
/-! PROOFS. The SHA-256 compressor (43_sha256_compressor.md): four rounds as one operation, one rule for each
operation of U2 alone, and the schedule, with the obligations that need no run; then a unit's command as its program's
run, said for both units; then U2's program as groups of operations, and the simulation that settles R273. -/

namespace Sys2Proof.Machine

/-! ### Four rounds (R254, R259) -/

/-- The working variables a to d as the lanes of a vector (R259). -/
def Sha256State.abcd (x : Sha256State) : Vec := ⟨x.a, x.b, x.c, x.d⟩

/-- The working variables e to h as the lanes of a vector (R259). -/
def Sha256State.efgh (x : Sha256State) : Vec := ⟨x.e, x.f, x.g, x.h⟩

/-- One pass of the loop of SHA256Hash4 is one round of R254 (R259). -/
theorem sha256Pass_eq (x : Sha256State) (wk : Word) :
    sha256Pass (x.abcd, x.efgh) wk = ((sha256Round wk x).abcd, (sha256Round wk x).efgh) := by
  simp [sha256Pass, sha256Round, Sha256State.abcd, Sha256State.efgh, BitVec.add_assoc, BitVec.add_comm x.d]

/-- SHA256Hash4 is four rounds of R254 (R259). -/
theorem sha256Hash4_eq (x : Sha256State) (w : Vec) :
    sha256Hash4 x.abcd x.efgh w = ((sha256FourRounds w x).abcd, (sha256FourRounds w x).efgh) := by
  simp only [sha256Hash4, sha256Pass_eq, sha256FourRounds]

/-! ### The operations of U2 alone (R184, R260 to R263) -/

section
variable {s : State} (hr : s.running = some .u2)
include hr

/-- VLDK fetches words `4g` to `4g + 3` of K256 (R184). -/
theorem exec_vldk_next {d : Reg} {g : Nat} (hg : g < 16) :
    exec (.vldk d (Fin.ofNat 16 g)) s = .next ((s.writeV .u2 d (wordQuad k256Table g)).advance .u2) := by
  have hval : (Fin.ofNat 16 g).val = g := Nat.mod_eq_of_lt hg
  refine exec_next (exec_vldk ..) hr rfl ?_
  rw [hval]
  rfl

theorem exec_sha256h_next {d n m : Reg} {x : Sha256State} {w : Vec} (hd : s.readV .u2 d = .ok x.abcd)
    (hn : s.readV .u2 n = .ok x.efgh) (hm : s.readV .u2 m = .ok w) :
    exec (.sha256h d n m) s = .next ((s.writeV .u2 d (sha256FourRounds w x).abcd).advance .u2) := by
  have hhalf : (sha256Hash4 x.abcd x.efgh w).1 = (sha256FourRounds w x).abcd := by rw [sha256Hash4_eq]
  rw [← hhalf]
  exact exec_next rfl hr rfl
    ((except_bind_of_ok hd _).trans ((except_bind_of_ok hn _).trans (except_bind_of_ok hm _)))

theorem exec_sha256h2_next {d n m : Reg} {x : Sha256State} {w : Vec} (hd : s.readV .u2 d = .ok x.efgh)
    (hn : s.readV .u2 n = .ok x.abcd) (hm : s.readV .u2 m = .ok w) :
    exec (.sha256h2 d n m) s = .next ((s.writeV .u2 d (sha256FourRounds w x).efgh).advance .u2) := by
  have hhalf : (sha256Hash4 x.abcd x.efgh w).2 = (sha256FourRounds w x).efgh := by rw [sha256Hash4_eq]
  rw [← hhalf]
  exact exec_next rfl hr rfl
    ((except_bind_of_ok hd _).trans ((except_bind_of_ok hn _).trans (except_bind_of_ok hm _)))

theorem exec_sha256su0_next {d n : Reg} {x y : Vec} (hd : s.readV .u2 d = .ok x) (hn : s.readV .u2 n = .ok y) :
    exec (.sha256su0 d n) s = .next ((s.writeV .u2 d (sha256Su0 x y)).advance .u2) :=
  exec_next rfl hr rfl ((except_bind_of_ok hd _).trans (except_bind_of_ok hn _))

theorem exec_sha256su1_next {d n m : Reg} {x y z : Vec} (hd : s.readV .u2 d = .ok x) (hn : s.readV .u2 n = .ok y)
    (hm : s.readV .u2 m = .ok z) :
    exec (.sha256su1 d n m) s = .next ((s.writeV .u2 d (sha256Su1 x y z)).advance .u2) :=
  exec_next rfl hr rfl ((except_bind_of_ok hd _).trans ((except_bind_of_ok hn _).trans (except_bind_of_ok hm _)))

end

/-- Settles O29: the abcd half of SHA256Hash4 on abcd in `V[d]` and efgh in `V[n]`. -/
theorem sha256hIsTheAbcdHalf : Obligations.Sha256hIsTheAbcdHalf := fun d n _ s hr hd hn hm =>
  ⟨isWord_of_encode rfl rfl, _,
    exec_sha256h_next (x := sha256Vars s.u2.v[d] s.u2.v[n]) hr (readV_of_written hd) (readV_of_written hn)
      (readV_of_written hm),
    writesV_writeV .., writeV_advance_v s .u2 d _⟩

/-- Settles O30: the efgh half of SHA256Hash4, with efgh in `V[d]` and abcd in `V[n]`. -/
theorem sha256h2IsTheEfghHalf : Obligations.Sha256h2IsTheEfghHalf := fun d n _ s hr hd hn hm =>
  ⟨isWord_of_encode rfl rfl, _,
    exec_sha256h2_next (x := sha256Vars s.u2.v[n] s.u2.v[d]) hr (readV_of_written hd) (readV_of_written hn)
      (readV_of_written hm),
    writesV_writeV .., writeV_advance_v s .u2 d _⟩

/-- Settles O31: the lanes of `sha256Su0` are the pseudocode's. -/
theorem sha256su0AddsSigmaZero : Obligations.Sha256su0AddsSigmaZero := by
  intro d n s hr hd hn
  refine ⟨isWord_of_encode rfl rfl, _, exec_sha256su0_next hr (readV_of_written hd) (readV_of_written hn),
    writesV_writeV .., ?_⟩
  rw [← unit_u2, writeV_advance_v]
  exact ⟨rfl, rfl, rfl, rfl⟩

/-- Settles O32: the lanes of `sha256Su1` are the pseudocode's, its lanes 2 and 3 written with lanes 0 and 1. -/
theorem sha256su1FinishesTheSchedule : Obligations.Sha256su1FinishesTheSchedule := by
  intro d n m s hr hd hn hm
  refine ⟨isWord_of_encode rfl rfl, _,
    exec_sha256su1_next hr (readV_of_written hd) (readV_of_written hn) (readV_of_written hm), writesV_writeV .., ?_⟩
  rw [← unit_u2, writeV_advance_v]
  exact ⟨rfl, rfl, rfl, rfl⟩

/-! ### The schedule (R252, R274) -/

/-- Settles O58: lanes 2 and 3 of SHA256SU1 take w(16) and w(17) from this same result. -/
theorem sha256ScheduleStepsAreTheRecurrence : Obligations.Sha256ScheduleStepsAreTheRecurrence := by
  intro w hw
  have hperm : ∀ a b c d : Word, a + (b + c) + d = a + d + b + c := fun a b c d => by ac_rfl
  have h16 : smallSigma1 (w 14) + (smallSigma0 (w 1) + w 0) + w 9 = w 16 := by
    rw [hperm, hw 16 (by omega) (by omega)]
  have h17 : smallSigma1 (w 15) + (smallSigma0 (w 2) + w 1) + w 10 = w 17 := by
    rw [hperm, hw 17 (by omega) (by omega)]
  have h18 : smallSigma1 (w 16) + (smallSigma0 (w 3) + w 2) + w 11 = w 18 := by
    rw [hperm, hw 18 (by omega) (by omega)]
  have h19 : smallSigma1 (w 17) + (smallSigma0 (w 4) + w 3) + w 12 = w 19 := by
    rw [hperm, hw 19 (by omega) (by omega)]
  simp only [sha256Su1, sha256Su0, h16, h17, h18, h19]

/-- The next word after the first `t` words of a schedule, read off the schedule itself (R252). -/
theorem sha256NextWord_take {ws : List Word} {t : Nat} (ht : 16 ≤ t) (hlen : t ≤ ws.length) :
    sha256NextWord (ws.take t) =
      smallSigma1 (ws.getD (t - 2) 0) + ws.getD (t - 7) 0 + smallSigma0 (ws.getD (t - 15) 0) + ws.getD (t - 16) 0 := by
  rw [sha256NextWord, List.length_take, Nat.min_eq_left hlen, getD_take (by omega), getD_take (by omega),
    getD_take (by omega), getD_take (by omega)]

/-- Settles O57: 16 words of the block, then the recurrence for the 48 that extend them. -/
theorem sha256ScheduleIsTheRecurrence : Obligations.Sha256ScheduleIsTheRecurrence := by
  intro blk hblk
  have h16 : (blockWords blk).length = 16 := by rw [blockWords_length, hblk]
  have hlen : (sha256Schedule blk).length = 64 := by rw [sha256Schedule, extendSchedule_length, h16]
  refine ⟨hlen, fun t ht => ?_, fun t h1 h2 => ?_⟩
  · exact (extendSchedule_getD_of_lt _ _ (by omega)).trans (blockWords_getD (by omega))
  · rw [← sha256NextWord_take h1 (by omega)]
    exact extendSchedule_getD sha256NextWord (by omega) (by omega)

/-! ### A command is its unit's program (R145, R171, R182) -/

/-- A compression command whose unit's ROM holds `is` and then END: if `is`, run on the memory the command finds,
leaves `m`, so does the command, which completes with OKAY and leaves all but its unit and memory. -/
theorem command_of_program {u : UnitId} {is : List Instr} {s : State} {m : Memory}
    (hi : ∀ i ∈ is, isStraight u i = true) (hlen : is.length < 256)
    (hrom : s.rom u = is.map encode ++ [encode .endOp]) (hline : s.resetLine = []) (hin : s.InputsWritten u)
    (hprog : ∀ r : State, r.running = some u → r.mem = s.mem → ∃ t, Execs is r t ∧ t.mem = m) :
    ∃ t0 t, exec (compressCommand u) s = .next t0 ∧ Host.Core.run core (is.length + 1) t0 = .next t ∧
      t.mem = m ∧ t.running = none ∧ (t.unit u).upc = 0 ∧
      KeepsRest u { s with running := none, responses := .okay :: s.responses } t := by
  obtain ⟨t0, hstart, hrun0, hpc0, -, hmem0, hk0⟩ := compressCommandStartsItsUnit u s hin
  have ⟨_, _, _, _, _, _, _, hline0⟩ := hk0
  have hrom0 : t0.rom u = s.rom u := by
    rw [rom_of_keepsRest hk0]
    cases u <;> rfl
  obtain ⟨t, hexec, ht⟩ := hprog t0 hrun0 hmem0
  obtain ⟨hrun, hk⟩ := run_program hi hlen (hrom0.trans hrom) (hline0.trans hline) hrun0 hpc0 hexec
  exact ⟨t0, _, hstart, hrun, by simpa [State.setUpc] using ht, rfl, by simp,
    keepsRest_trans (keepsRest_completed (keepsRest_trans hk0 hk)) (keepsRest_endOp ..)⟩

/-! ### U2's program as groups of operations (R270) -/

/-- Load state and block, byte-swap (R270, upc 0 to 11). -/
def sha256Load : List Instr :=
  [.vld 0 0x00, .vld 1 0x10, .vmov 2 0, .vmov 3 1, .vld 4 0x40, .vld 5 0x50, .vld 6 0x60, .vld 7 0x70,
   .vrev32 4 4, .vrev32 5 5, .vrev32 6 6, .vrev32 7 7]

/-- Rounds `4g` to `4g + 3` (R270, R272). -/
def sha256RoundOps (g : Nat) : List Instr :=
  [.vldk 8 (Fin.ofNat 16 g), .vadd 8 (ringReg g) 8, .vmov 9 2, .sha256h 2 3 8, .sha256h2 3 9 8]

/-- The schedule step that turns words `4k` to `4k + 15` of the ring into words `4k + 4` to `4k + 19` (R274). -/
def sha256ScheduleOps (k : Nat) : List Instr :=
  [.sha256su0 (ringReg k) (ringReg (k + 1)), .sha256su1 (ringReg k) (ringReg (k + 2)) (ringReg (k + 3))]

/-- The iterations that schedule four more words (R270, upc 12 to 95). -/
def sha256ScheduledIterations (n : Nat) : List Instr :=
  (List.range n).flatMap fun g => sha256RoundOps g ++ sha256ScheduleOps g

/-- The iterations with no schedule step (R270, upc 96 to 115). -/
def sha256LastIterations (n : Nat) : List Instr := (List.range n).flatMap fun j => sha256RoundOps (12 + j)

/-- Feed-forward and store (R270, upc 116 to 119). -/
def sha256Store : List Instr := [.vadd 2 2 0, .vadd 3 3 1, .vst 0x00 2, .vst 0x10 3]

/-- U2's micro-program but its END. -/
def sha256Program : List Instr := sha256Load ++ sha256ScheduledIterations 12 ++ sha256LastIterations 4 ++ sha256Store

theorem rom_u2_eq_sha256Program : Rom.u2 = sha256Program.map encode ++ [encode .endOp] := by decide +kernel

theorem sha256Program_straight : ∀ i ∈ sha256Program, isStraight .u2 i = true := by decide +kernel

theorem sha256Program_length : sha256Program.length = 120 := by decide +kernel

/-! ### The registers between iterations (R271) -/

/-- The ring is V4 to V7. -/
theorem ringReg_ne_of_ge (j : Nat) {r : Reg} (hr : 8 ≤ r.val) : ringReg j ≠ r := by
  rw [Ne, Fin.ext_iff, ringReg, Fin.val_ofNat]
  omega

@[simp] theorem ringReg_ne_three (j : Nat) : ringReg j ≠ 3 := ringReg_ne_of_lt j (by decide)

@[simp] theorem ringReg_ne_eight (j : Nat) : ringReg j ≠ 8 := ringReg_ne_of_ge j (by decide)

@[simp] theorem ringReg_ne_nine (j : Nat) : ringReg j ≠ 9 := ringReg_ne_of_ge j (by decide)

/-- U2 inside a command on state `h` and schedule `ws`, `g` groups of four rounds done and words `4k` to `4k + 15` in
the ring (R271): the working variables after `4g` rounds, the state as loaded, and memory still `m`. -/
structure Sha256At (m : Memory) (h : Sha256State) (ws : List Word) (g k : Nat) (s : State) : Prop where
  running : s.running = some .u2
  mem : s.mem = m
  abcd : s.readV .u2 2 = .ok (sha256Rounds ws 0 (4 * g) h).abcd
  efgh : s.readV .u2 3 = .ok (sha256Rounds ws 0 (4 * g) h).efgh
  origAbcd : s.readV .u2 0 = .ok h.abcd
  origEfgh : s.readV .u2 1 = .ok h.efgh
  ring : ∀ j, k ≤ j → j < k + 4 → s.readV .u2 (ringReg j) = .ok (wordQuad ws j)

/-! ### The schedule step (R274) -/

/-- A schedule that follows the recurrence gives its next four words by SHA256SU0 and SHA256SU1. -/
theorem sha256Su1_wordQuad {blk : List Byte} (hlen : blk.length = 64) {k : Nat} (hk : k < 12) :
    sha256Su1 (sha256Su0 (wordQuad (sha256Schedule blk) k) (wordQuad (sha256Schedule blk) (k + 1)))
      (wordQuad (sha256Schedule blk) (k + 2)) (wordQuad (sha256Schedule blk) (k + 3)) =
        wordQuad (sha256Schedule blk) (k + 4) := by
  obtain ⟨-, -, hrec⟩ := sha256ScheduleIsTheRecurrence blk hlen
  refine sha256ScheduleStepsAreTheRecurrence (fun t => (sha256Schedule blk).getD (4 * k + t) 0) fun t h1 h2 => ?_
  have h := hrec (4 * k + t) (by omega) (by omega)
  rwa [Nat.add_sub_assoc (by omega), Nat.add_sub_assoc (by omega), Nat.add_sub_assoc (by omega),
    Nat.add_sub_assoc (by omega)] at h

section
variable {m : Memory} {h : Sha256State} {blk : List Byte} {g k : Nat} {s : State}

/-- The schedule step moves the ring's window on by four words (R274). -/
theorem execs_sha256ScheduleOps (hlen : blk.length = 64) (hk : k < 12)
    (hs : Sha256At m h (sha256Schedule blk) g k s) :
    ∃ t, Execs (sha256ScheduleOps k) s t ∧ Sha256At m h (sha256Schedule blk) g (k + 1) t := by
  obtain ⟨hrun, hmem, habcd, hefgh, hoa, hoe, hring⟩ := hs
  have hread : ∀ i, 0 < i → i < 4 → ringReg (k + i) ≠ ringReg k ∧
      s.readV .u2 (ringReg (k + i)) = .ok (wordQuad (sha256Schedule blk) (k + i)) := fun i h0 h4 =>
    ⟨by rw [Ne, ringReg_eq_iff]; omega, hring (k + i) (by omega) (by omega)⟩
  obtain ⟨-, h1⟩ := hread 1 (by omega) (by omega)
  obtain ⟨hne2, h2⟩ := hread 2 (by omega) (by omega)
  obtain ⟨hne3, h3⟩ := hread 3 (by omega) (by omega)
  refine ⟨_, ⟨_, exec_sha256su0_next hrun (hring k (by omega) (by omega)) h1, _,
    exec_sha256su1_next (by simpa) (writeV_advance_readV_same ..) (by simpa [hne2] using h2)
      (by simpa [hne3] using h3), rfl⟩, ?_⟩
  rw [sha256Su1_wordQuad hlen hk]
  refine ⟨by simpa, by simpa, ?_, ?_, ?_, ?_, fun j hj hj' => ?_⟩
  · simpa [(ringReg_ne_two _).symm]
  · simpa [(ringReg_ne_three _).symm]
  · simpa [(ringReg_ne_zero _).symm]
  · simpa [(ringReg_ne_one _).symm]
  · by_cases hlast : j = k + 4
    · have hsame : ringReg j = ringReg k := by rw [ringReg_eq_iff]; omega
      rw [hsame, hlast]
      exact writeV_advance_readV_same ..
    · have hother : ringReg j ≠ ringReg k := by rw [Ne, ringReg_eq_iff]; omega
      simpa [hother] using hring j (by omega) (by omega)

/-! ### Four rounds of the program (R254, R272) -/

theorem sha256Rounds_add (ws : List Word) (t a b : Nat) (x : Sha256State) :
    sha256Rounds ws t (a + b) x = sha256Rounds ws (t + a) b (sha256Rounds ws t a x) := by
  induction a generalizing t x with
  | zero => rw [Nat.zero_add]; rfl
  | succ a ih => rw [Nat.add_right_comm, sha256Rounds, ih, sha256Rounds, Nat.add_assoc, Nat.add_comm 1]

/-- The constants and message words of four rounds, summed (R254). -/
def sha256Sums (ws : List Word) (g : Nat) : Vec := zipLanes (· + ·) (wordQuad ws g) (wordQuad k256Table g)

/-- Rounds `4g` to `4g + 3` are four rounds with their sums (R254). -/
theorem sha256Rounds_group (ws : List Word) (g : Nat) (x : Sha256State) :
    sha256Rounds ws 0 (4 * (g + 1)) x = sha256FourRounds (sha256Sums ws g) (sha256Rounds ws 0 (4 * g) x) := by
  rw [Nat.mul_succ, sha256Rounds_add, Nat.zero_add]
  simp only [sha256Rounds, sha256FourRounds, sha256Sums, zipLanes, wordQuad, k256, Nat.add_assoc, Nat.reduceAdd,
    BitVec.add_comm (k256Table.getD _ 0)]

/-- An iteration runs four rounds on the working variables: SHA256H2 takes the old abcd from its copy in V9 (R272). -/
theorem execs_sha256RoundOps {ws : List Word} (hg : g < 16) (hkg : k ≤ g) (hgk : g < k + 4)
    (hs : Sha256At m h ws g k s) :
    ∃ t, Execs (sha256RoundOps g) s t ∧ Sha256At m h ws (g + 1) k t := by
  obtain ⟨hrun, hmem, habcd, hefgh, hoa, hoe, hring⟩ := hs
  have hwords : s.readV .u2 (ringReg g) = .ok (wordQuad ws g) := hring g hkg hgk
  refine ⟨_, ⟨_, exec_vldk_next hrun hg, _,
    exec_vadd_next (by simpa) (by simpa using hwords) (writeV_advance_readV_same ..), _,
    exec_vmov_next (by simpa) (by simpa using habcd), _,
    exec_sha256h_next (w := sha256Sums ws g) (by simpa) (by simpa using habcd) (by simpa using hefgh)
      ((writeV_advance_readV ..).trans (writeV_advance_readV_same ..)), _,
    exec_sha256h2_next (w := sha256Sums ws g) (by simpa) (by simpa using hefgh)
      ((writeV_advance_readV ..).trans (writeV_advance_readV_same ..))
      ((writeV_advance_readV ..).trans ((writeV_advance_readV ..).trans (writeV_advance_readV_same ..))), rfl⟩, ?_⟩
  rw [← sha256Rounds_group]
  exact ⟨by simpa, by simpa, by simp, by simp, by simpa, by simpa, fun j hj hj' => by simpa using hring j hj hj'⟩

/-! ### The sixteen iterations -/

/-- The iterations that schedule move the ring on by four words each. -/
theorem execs_sha256ScheduledIterations (hlen : blk.length = 64) {n : Nat} (hn : n ≤ 12)
    (hs : Sha256At m h (sha256Schedule blk) 0 0 s) :
    ∃ t, Execs (sha256ScheduledIterations n) s t ∧ Sha256At m h (sha256Schedule blk) n n t := by
  induction n with
  | zero => exact ⟨s, rfl, hs⟩
  | succ n ih =>
    obtain ⟨r, hr, hsr⟩ := ih (by omega)
    obtain ⟨r', hr', hsr'⟩ := execs_sha256RoundOps (by omega) (le_refl n) (by omega) hsr
    obtain ⟨t, ht, hst⟩ := execs_sha256ScheduleOps hlen (by omega) hsr'
    refine ⟨t, ?_, hst⟩
    rw [sha256ScheduledIterations, List.range_succ, List.flatMap_append, List.flatMap_singleton]
    exact execs_append hr (execs_append hr' ht)

/-- The last iterations use up the ring's words and leave the ring as it is. -/
theorem execs_sha256LastIterations {ws : List Word} {n : Nat} (hn : n ≤ 4) (hs : Sha256At m h ws 12 12 s) :
    ∃ t, Execs (sha256LastIterations n) s t ∧ Sha256At m h ws (12 + n) 12 t := by
  induction n with
  | zero => exact ⟨s, rfl, hs⟩
  | succ n ih =>
    obtain ⟨r, hr, hsr⟩ := ih (by omega)
    obtain ⟨t, ht, hst⟩ := execs_sha256RoundOps (by omega) (Nat.le_add_right 12 n) (by omega) hsr
    refine ⟨t, ?_, hst⟩
    rw [sha256LastIterations, List.range_succ, List.flatMap_append, List.flatMap_singleton]
    exact execs_append hr ht

/-! ### Load and store (R250, R255) -/

/-- Extending a schedule leaves the four words of a ring register that it began with. -/
theorem wordQuad_extendSchedule (next : List Word → Word) (n : Nat) {ws : List Word} {j : Nat}
    (hj : 4 * j + 4 ≤ ws.length) : wordQuad (extendSchedule next n ws) j = wordQuad ws j := by
  rw [wordQuad, extendSchedule_getD_of_lt _ _ (by omega), extendSchedule_getD_of_lt _ _ (by omega),
    extendSchedule_getD_of_lt _ _ (by omega), extendSchedule_getD_of_lt _ _ (by omega), wordQuad]

/-- The two schedules of a block begin with the same 16 words (R202, R252). -/
theorem wordQuad_sha256Schedule {j : Nat} (hlen : blk.length = 64) (hj : j < 4) :
    wordQuad (sha256Schedule blk) j = wordQuad (sha1Schedule blk) j := by
  have hj' : 4 * j + 4 ≤ (blockWords blk).length := by rw [blockWords_length]; omega
  rw [sha256Schedule, wordQuad_extendSchedule _ _ hj', sha1Schedule, wordQuad_extendSchedule _ _ hj']

/-- The first 16 bytes of U2.STATE are its words A to D (R34, R172). -/
theorem leVec_take_sha256State (st : List Byte) : leVec (st.take 16) = (sha256StateOf st).abcd := by
  simp [leVec, Sha256State.abcd, sha256StateOf, List.drop_take, List.take_take]

/-- The last 16 bytes of U2.STATE are its words E to H (R34, R172). -/
theorem leVec_drop_sha256State (st : List Byte) : leVec ((st.drop 16).take 16) = (sha256StateOf st).efgh := by
  simp [leVec, Sha256State.efgh, sha256StateOf, List.drop_take, List.take_take]

/-- The loaded state and block are where the first iteration expects them (R270). -/
theorem execs_sha256Load {st : List Byte} (hrun : s.running = some .u2) (hst : s.loadBytes 0x080 32 = .ok st)
    (hblk : s.loadBytes 0x0C0 64 = .ok blk) :
    ∃ t, Execs sha256Load s t ∧ Sha256At s.mem (sha256StateOf st) (sha256Schedule blk) 0 0 t := by
  have hlen : blk.length = 64 := ((loadBytes_ok_iff ..).mp hblk).1
  have habcd : s.loadBytes (localAddr .u2 0x00) 16 = .ok (st.take 16) := loadBytes_part hst (i := 0) (by omega)
  have hefgh : s.loadBytes (localAddr .u2 0x10) 16 = .ok ((st.drop 16).take 16) :=
    loadBytes_part hst (i := 16) (by omega)
  have hquad : ∀ j < 4, s.loadBytes (0x0C0 + 16 * j) 16 = .ok ((blk.drop (16 * j)).take 16) :=
    fun j hj => loadBytes_part hblk (by omega)
  refine ⟨_, ⟨_, exec_vld_next hrun rfl habcd, _,
    exec_vld_next (by simpa) rfl ((writeV_advance_loadBytes ..).trans hefgh), _,
    exec_vmov_next (x := leVec (st.take 16)) (by simpa) (by simp), _,
    exec_vmov_next (x := leVec ((st.drop 16).take 16)) (by simpa) (by simp), _,
    exec_vld_next (by simpa) rfl (by simpa [localAddr, unitBase] using hquad 0 (by omega)), _,
    exec_vld_next (by simpa) rfl (by simpa [localAddr, unitBase] using hquad 1 (by omega)), _,
    exec_vld_next (by simpa) rfl (by simpa [localAddr, unitBase] using hquad 2 (by omega)), _,
    exec_vld_next (by simpa) rfl (by simpa [localAddr, unitBase] using hquad 3 (by omega)), _,
    exec_vrev32_next (x := leVec (blk.take 16)) (by simpa) (by simp), _,
    exec_vrev32_next (x := leVec ((blk.drop 16).take 16)) (by simpa) (by simp), _,
    exec_vrev32_next (x := leVec ((blk.drop 32).take 16)) (by simpa) (by simp), _,
    exec_vrev32_next (x := leVec ((blk.drop 48).take 16)) (by simpa) (by simp), rfl⟩, ?_⟩
  refine ⟨by simpa, by simp, ?_, ?_, ?_, ?_, fun j _ hj => ?_⟩
  · simp [sha256Rounds, leVec_take_sha256State]
  · simp [sha256Rounds, leVec_drop_sha256State]
  · simp [leVec_take_sha256State]
  · simp [leVec_drop_sha256State]
  · rw [wordQuad_sha256Schedule hlen hj, ← mapLanes_bswap32_leVec hlen hj]
    match j, hj with
    | 0, _ | 1, _ | 2, _ | 3, _ => simp [ringReg]

@[simp] theorem storeBytes_advance_readV (s : State) (u : UnitId) (r : Reg) (a : Nat) (bs : List Byte) :
    ((s.storeBytes a bs).advance u).readV u r = s.readV u r := by
  simp [State.readV]

/-- The bytes of the sum state, as VADD and VST give them (R255). -/
theorem sha256State_add_bytes (h x : Sha256State) :
    (h.add x).bytes =
      vecBytes (zipLanes (· + ·) x.abcd h.abcd) ++ vecBytes (zipLanes (· + ·) x.efgh h.efgh) := by
  simp only [Sha256State.bytes, Sha256State.add, vecBytes, zipLanes, Sha256State.abcd, Sha256State.efgh,
    List.append_assoc, BitVec.add_comm h.a, BitVec.add_comm h.b, BitVec.add_comm h.c, BitVec.add_comm h.d,
    BitVec.add_comm h.e, BitVec.add_comm h.f, BitVec.add_comm h.g, BitVec.add_comm h.h]

/-- The final store leaves the word-wise sums of R255 in U2.STATE. -/
theorem execs_sha256Store {ws : List Word} (hs : Sha256At m h ws 16 k s) :
    ∃ t, Execs sha256Store s t ∧ t.mem = m.store 0x080 (h.add (sha256Rounds ws 0 64 h)).bytes := by
  obtain ⟨hrun, hmem, habcd, hefgh, hoa, hoe, -⟩ := hs
  refine ⟨_, ⟨_, exec_vadd_next hrun habcd hoa, _,
    exec_vadd_next (by simpa) ((writeV_advance_readV ..).trans hefgh) ((writeV_advance_readV ..).trans hoe), _,
    exec_vst_next (by simpa) rfl ((writeV_advance_readV ..).trans (writeV_advance_readV_same ..)), _,
    exec_vst_next (by simpa) rfl ((storeBytes_advance_readV ..).trans (writeV_advance_readV_same ..)), rfl⟩, ?_⟩
  rw [sha256State_add_bytes, store_append, vecBytes_length, ← hmem]
  simp [localAddr, unitBase]

/-! ### The whole command (R147, R171, R273) -/

/-- The micro-program but its END, run on loaded inputs, leaves the compressed state in U2.STATE (R250, R270). -/
theorem execs_sha256Program {st : List Byte} (hrun : s.running = some .u2) (hst : s.loadBytes 0x080 32 = .ok st)
    (hblk : s.loadBytes 0x0C0 64 = .ok blk) :
    ∃ t, Execs sha256Program s t ∧ t.mem = s.mem.store 0x080 (sha256CompressFn (sha256StateOf st) blk).bytes := by
  have hlen : blk.length = 64 := ((loadBytes_ok_iff ..).mp hblk).1
  obtain ⟨s1, h1, hs1⟩ := execs_sha256Load hrun hst hblk
  obtain ⟨s2, h2, hs2⟩ := execs_sha256ScheduledIterations hlen (le_refl 12) hs1
  obtain ⟨s3, h3, hs3⟩ := execs_sha256LastIterations (le_refl 4) hs2
  obtain ⟨t, h4, ht⟩ := execs_sha256Store hs3
  exact ⟨t, execs_append (execs_append (execs_append h1 h2) h3) h4, ht⟩

end

/-- Settles O60: U2's command is its program (R171), the program is the iterations of R270, and END gives the OKAY. -/
theorem sha256MicroProgramComputesTheCompression : Obligations.Sha256MicroProgramComputesTheCompression := by
  intro s m hrom hline hm
  obtain ⟨st, hst, hm⟩ := except_bind_ok.mp hm
  obtain ⟨blk, hblk, hm⟩ := except_bind_ok.mp hm
  have hin : s.InputsWritten .u2 := by
    rw [← checkInputs_ok_iff, State.checkInputs]
    exact (except_bind_of_ok hst _).trans (except_bind_of_ok hblk _)
  have hcommand := command_of_program (m := m) sha256Program_straight (by rw [sha256Program_length]; omega)
    (hrom.trans rom_u2_eq_sha256Program) hline hin fun r hrun hmem => by
      have hload : ∀ a n, r.loadBytes a n = s.loadBytes a n := fun a n => loadBytes_congr fun _ _ => by rw [hmem]
      rw [except_pure_ok.mp hm, ← hmem]
      exact execs_sha256Program hrun ((hload ..).trans hst) ((hload ..).trans hblk)
  rwa [sha256Program_length] at hcommand

end Sys2Proof.Machine
end
